-- ==== Sys2Proof/Word.lean ====
section
/-! DEFINITION. The word types of the machine (00_scope.md R9, R10; 10_state.md R20, R23, R27; 30_encoding.md R91).
Every value is unsigned and nothing is ever sign-extended. -/

namespace Sys2Proof

/-- One byte: a general register, the delay timer, a byte of memory, the immediate kk. -/
abbrev Byte := BitVec 8

/-- Sixteen bits: pc, I, a stack slot, an instruction word. -/
abbrev Word := BitVec 16

/-- A 12-bit address operand nnn (R91). -/
abbrev Addr := BitVec 12

/-- The index of a general register, an x or y field: V0 … VF (R20, R94). -/
abbrev Reg := Fin 16

/-- The sprite height n of DRW, a 4-bit unsigned count (R94). -/
abbrev Rows := Fin 16

/-- `zext_16` of a 12-bit address (R10). -/
abbrev zext16 (a : Addr) : Word := a.setWidth 16

/-- VF, the general register that doubles as the flag register (10_state.md R21). -/
abbrev VF : Reg := 15

end Sys2Proof
end

