-- ==== Sys2Proof/Config.lean ====
section
/-! DEFINITION. What 00_scope.md R7 leaves to the implementation, as one record of plain data, and the one free value
of the machine, the random input byte (10_state.md R50). The values this hardware takes are in Machine/Defaults.lean. -/

namespace Sys2Proof

/-- The parameters of 00_scope.md R7. A machine carries one such record in its state (log 1), so every claim about all
states is a claim about all parameter values. -/
structure Config where
  /-- CANONICAL_EXTRAS: whether 8xy0, 8xy7, Bnnn, Fx0A, Fx18 and Fx1E decode (R8). -/
  canonicalExtras : Bool
  /-- LOGIC_RESETS_VF: whether OR, AND and XOR write VF ← 0 (43_alu.md R174). -/
  logicResetsVF : Bool
  /-- SHIFT_USES_VY: whether SHR and SHL shift V[y] rather than V[x] (43_alu.md R180). -/
  shiftUsesVy : Bool
  /-- LOADSTORE_INCREMENTS_I: whether Fx55 and Fx65 leave I ← I + x + 1 (47_fclass.md R265). -/
  loadStoreIncrementsI : Bool
  /-- RESERVED_FETCH_FAULTS: whether a fetch at pc < 0x200 faults (40_cycle.md R111). -/
  reservedFetchFaults : Bool
  /-- FONT: the glyph bytes at 0x000 … 0x04F (10_state.md R40). -/
  font : Vector Byte 80
deriving DecidableEq, Repr

/-- The byte the random input carries at the k-th request: "a free draw per cycle under no law" (10_state.md R50;
log 4). It has no body, so a claim about it holds for every sequence of bytes. -/
opaque Config.freeRnd : Nat → Byte

end Sys2Proof
end

