-- ==== Sys2Proof/Syntax.lean ====
section
/-! DEFINITION. The instructions: one constructor for each row of spec/opcode_table.json, in the table's order, with
the operand fields of 30_encoding.md R91, R92. -/

namespace Sys2Proof

/-- The instruction set (30_encoding.md R95, R103). A constructor holds every operand field of its row, also one that
the instruction ignores (the y of SHR and SHL, R99). -/
inductive Instr where
  /-- CLS, 00E0 (R220) -/
  | cls
  /-- RET, 00EE (R131) -/
  | ret
  /-- JP addr, 1nnn (R132) -/
  | jp (nnn : Addr)
  /-- CALL addr, 2nnn (R133) -/
  | call (nnn : Addr)
  /-- SE Vx, byte, 3xkk (R151) -/
  | seImm (x : Reg) (kk : Byte)
  /-- SNE Vx, byte, 4xkk (R152) -/
  | sneImm (x : Reg) (kk : Byte)
  /-- SE Vx, Vy, 5xy0 (R153) -/
  | seReg (x y : Reg)
  /-- LD Vx, byte, 6xkk (R171) -/
  | ldImm (x : Reg) (kk : Byte)
  /-- ADD Vx, byte, 7xkk (R172) -/
  | addImm (x : Reg) (kk : Byte)
  /-- LD Vx, Vy, 8xy0, an extra (R173) -/
  | ldReg (x y : Reg)
  /-- OR Vx, Vy, 8xy1 (R174) -/
  | orReg (x y : Reg)
  /-- AND Vx, Vy, 8xy2 (R175) -/
  | andReg (x y : Reg)
  /-- XOR Vx, Vy, 8xy3 (R176) -/
  | xorReg (x y : Reg)
  /-- ADD Vx, Vy, 8xy4 (R177) -/
  | addReg (x y : Reg)
  /-- SUB Vx, Vy, 8xy5 (R178) -/
  | sub (x y : Reg)
  /-- SHR Vx, 8xy6 (R180) -/
  | shr (x y : Reg)
  /-- SUBN Vx, Vy, 8xy7, an extra (R179) -/
  | subn (x y : Reg)
  /-- SHL Vx, 8xyE (R181) -/
  | shl (x y : Reg)
  /-- SNE Vx, Vy, 9xy0 (R154) -/
  | sneReg (x y : Reg)
  /-- LD I, addr, Annn (R201) -/
  | ldI (nnn : Addr)
  /-- JP V0, addr, Bnnn, an extra (R134) -/
  | jpV0 (nnn : Addr)
  /-- RND Vx, byte, Cxkk (R202) -/
  | rnd (x : Reg) (kk : Byte)
  /-- DRW Vx, Vy, n, Dxyn (R222) -/
  | drw (x y : Reg) (n : Rows)
  /-- SKP Vx, Ex9E (R241) -/
  | skp (x : Reg)
  /-- SKNP Vx, ExA1 (R242) -/
  | sknp (x : Reg)
  /-- LD Vx, DT, Fx07 (R261) -/
  | ldVxDt (x : Reg)
  /-- LD Vx, K, Fx0A, an extra (R243) -/
  | ldVxK (x : Reg)
  /-- LD DT, Vx, Fx15 (R262) -/
  | ldDtVx (x : Reg)
  /-- LD ST, Vx, Fx18, an extra (R271) -/
  | ldStVx (x : Reg)
  /-- ADD I, Vx, Fx1E, an extra (R272) -/
  | addIVx (x : Reg)
  /-- LD F, Vx, Fx29 (R263) -/
  | ldFVx (x : Reg)
  /-- LD B, Vx, Fx33 (R264) -/
  | ldBVx (x : Reg)
  /-- LD [I], Vx, Fx55 (R265) -/
  | ldIVx (x : Reg)
  /-- LD Vx, [I], Fx65 (R266) -/
  | ldVxI (x : Reg)
deriving DecidableEq, Repr

end Sys2Proof
end

