-- ==== Sys2Proof/WellFormed.lean ====
section
/-! DEFINITION. Which instructions a machine with given parameters has (00_scope.md R8). The widths of the operand
fields stand in the types of Syntax.lean, so the one check left is whether an extra is admitted. -/

namespace Sys2Proof

/-- The six extras: the instructions of 00_scope.md R8 that exist only when CANONICAL_EXTRAS is true. -/
def Instr.isExtra : Instr → Bool
  | .ldReg _ _ | .subn _ _ | .jpV0 _ | .ldVxK _ | .ldStVx _ | .addIVx _ => true
  | .cls | .ret | .jp _ | .call _ | .seImm _ _ | .sneImm _ _ | .seReg _ _ | .ldImm _ _ | .addImm _ _
  | .orReg _ _ | .andReg _ _ | .xorReg _ _ | .addReg _ _ | .sub _ _ | .shr _ _ | .shl _ _ | .sneReg _ _
  | .ldI _ | .rnd _ _ | .drw _ _ _ | .skp _ | .sknp _ | .ldVxDt _ | .ldDtVx _ | .ldFVx _ | .ldBVx _
  | .ldIVx _ | .ldVxI _ => false

/-- An instruction is well-formed for parameters `cfg` when the machine has it (00_scope.md R8). -/
def Instr.wellFormed (cfg : Config) (i : Instr) : Bool := cfg.canonicalExtras || !i.isExtra

end Sys2Proof
end

