-- ==== Sys2Proof/Decode.lean ====
section
/-! DEFINITION. Decoding and encoding (spec/30_encoding.md), both written from the spec's format table R92 and its
decode table R95, and the opcode table's mask and match columns as data (R100). -/

namespace Sys2Proof

/-! ### Fields (R91) -/

/-- The class, the "top nibble" op[15:12]. -/
def classOf (op : Word) : Nat := (op.extractLsb' 12 4).toNat

/-- x, op[11:8]. -/
def fieldX (op : Word) : Reg := (op.extractLsb' 8 4).toFin

/-- y, op[7:4]. -/
def fieldY (op : Word) : Reg := (op.extractLsb' 4 4).toFin

/-- n, the "low nibble" op[3:0]. -/
def fieldN (op : Word) : Rows := (op.extractLsb' 0 4).toFin

/-- kk, the "low byte" op[7:0]. -/
def fieldKK (op : Word) : Byte := op.extractLsb' 0 8

/-- nnn, op[11:0]. -/
def fieldNNN (op : Word) : Addr := op.extractLsb' 0 12

/-! ### Decode (R95, R96, R97) -/

/-- What the decoder answers: "exactly one of: an instruction with its fields, or UnimplementedInstruction(op)" (R95). -/
inductive Decoded where
  | instr (i : Instr)
  | unimplementedInstruction (op : Word)
deriving DecidableEq, Repr

/-- An extra: the instruction when CANONICAL_EXTRAS is true, UnimplementedInstruction otherwise (R8, R95). -/
def Decoded.extra (ext : Bool) (op : Word) (i : Instr) : Decoded :=
  if ext then .instr i else .unimplementedInstruction op

/-- Class 8 by its low nibble (R95). -/
def decodeClass8 (ext : Bool) (op : Word) : Decoded :=
  match (fieldN op).val with
  | 0x0 => .extra ext op (.ldReg (fieldX op) (fieldY op))
  | 0x1 => .instr (.orReg (fieldX op) (fieldY op))
  | 0x2 => .instr (.andReg (fieldX op) (fieldY op))
  | 0x3 => .instr (.xorReg (fieldX op) (fieldY op))
  | 0x4 => .instr (.addReg (fieldX op) (fieldY op))
  | 0x5 => .instr (.sub (fieldX op) (fieldY op))
  | 0x6 => .instr (.shr (fieldX op) (fieldY op))
  | 0x7 => .extra ext op (.subn (fieldX op) (fieldY op))
  | 0xE => .instr (.shl (fieldX op) (fieldY op))
  | _ => .unimplementedInstruction op

/-- Class E by its low byte (R95). -/
def decodeClassE (op : Word) : Decoded :=
  match (fieldKK op).toNat with
  | 0x9E => .instr (.skp (fieldX op))
  | 0xA1 => .instr (.sknp (fieldX op))
  | _ => .unimplementedInstruction op

/-- Class F by its low byte (R95). -/
def decodeClassF (ext : Bool) (op : Word) : Decoded :=
  match (fieldKK op).toNat with
  | 0x07 => .instr (.ldVxDt (fieldX op))
  | 0x0A => .extra ext op (.ldVxK (fieldX op))
  | 0x15 => .instr (.ldDtVx (fieldX op))
  | 0x18 => .extra ext op (.ldStVx (fieldX op))
  | 0x1E => .extra ext op (.addIVx (fieldX op))
  | 0x29 => .instr (.ldFVx (fieldX op))
  | 0x33 => .instr (.ldBVx (fieldX op))
  | 0x55 => .instr (.ldIVx (fieldX op))
  | 0x65 => .instr (.ldVxI (fieldX op))
  | _ => .unimplementedInstruction op

/-- The decoder (R95): total, and every word with no defined semantics is rejected by name with the word itself.
`ext` is CANONICAL_EXTRAS. -/
def decode (ext : Bool) (op : Word) : Decoded :=
  match classOf op with
  | 0x0 =>
    if op = 0x00E0#16 then .instr .cls
    else if op = 0x00EE#16 then .instr .ret
    else .unimplementedInstruction op
  | 0x1 => .instr (.jp (fieldNNN op))
  | 0x2 => .instr (.call (fieldNNN op))
  | 0x3 => .instr (.seImm (fieldX op) (fieldKK op))
  | 0x4 => .instr (.sneImm (fieldX op) (fieldKK op))
  | 0x5 => if fieldN op = 0 then .instr (.seReg (fieldX op) (fieldY op)) else .unimplementedInstruction op
  | 0x6 => .instr (.ldImm (fieldX op) (fieldKK op))
  | 0x7 => .instr (.addImm (fieldX op) (fieldKK op))
  | 0x8 => decodeClass8 ext op
  | 0x9 => if fieldN op = 0 then .instr (.sneReg (fieldX op) (fieldY op)) else .unimplementedInstruction op
  | 0xA => .instr (.ldI (fieldNNN op))
  | 0xB => .extra ext op (.jpV0 (fieldNNN op))
  | 0xC => .instr (.rnd (fieldX op) (fieldKK op))
  | 0xD => .instr (.drw (fieldX op) (fieldY op) (fieldN op))
  | 0xE => decodeClassE op
  | _ => decodeClassF ext op

/-- The instruction word that two consecutive bytes form, the high byte at the lower address (R90; 20_memory.md R63). -/
def wordOfBytes (first second : Byte) : Word := first ++ second

/-- The decoder on the two bytes an instruction is stored in. -/
def decodeBytes (ext : Bool) (first second : Byte) : Decoded := decode ext (wordOfBytes first second)

/-! ### Encode (R92) -/

/-- Format ADDR: c / nnn. -/
def packAddr (c : BitVec 4) (nnn : Addr) : Word := c ++ nnn

/-- Formats XKK and XSS: c / x / kk. -/
def packXKK (c : BitVec 4) (x : Reg) (kk : Byte) : Word := c ++ BitVec.ofFin (w := 4) x ++ kk

/-- Formats XYN and XYS: c / x / y / n. -/
def packXYN (c : BitVec 4) (x y : Reg) (n : Rows) : Word :=
  c ++ BitVec.ofFin (w := 4) x ++ BitVec.ofFin (w := 4) y ++ BitVec.ofFin (w := 4) n

/-- The word of an instruction (R92, R96 and the patterns of opcode_table.json). -/
def encode : Instr → Word
  | .cls => 0x00E0#16
  | .ret => 0x00EE#16
  | .jp nnn => packAddr 0x1 nnn
  | .call nnn => packAddr 0x2 nnn
  | .seImm x kk => packXKK 0x3 x kk
  | .sneImm x kk => packXKK 0x4 x kk
  | .seReg x y => packXYN 0x5 x y 0
  | .ldImm x kk => packXKK 0x6 x kk
  | .addImm x kk => packXKK 0x7 x kk
  | .ldReg x y => packXYN 0x8 x y 0x0
  | .orReg x y => packXYN 0x8 x y 0x1
  | .andReg x y => packXYN 0x8 x y 0x2
  | .xorReg x y => packXYN 0x8 x y 0x3
  | .addReg x y => packXYN 0x8 x y 0x4
  | .sub x y => packXYN 0x8 x y 0x5
  | .shr x y => packXYN 0x8 x y 0x6
  | .subn x y => packXYN 0x8 x y 0x7
  | .shl x y => packXYN 0x8 x y 0xE
  | .sneReg x y => packXYN 0x9 x y 0
  | .ldI nnn => packAddr 0xA nnn
  | .jpV0 nnn => packAddr 0xB nnn
  | .rnd x kk => packXKK 0xC x kk
  | .drw x y n => packXYN 0xD x y n
  | .skp x => packXKK 0xE x 0x9E
  | .sknp x => packXKK 0xE x 0xA1
  | .ldVxDt x => packXKK 0xF x 0x07
  | .ldVxK x => packXKK 0xF x 0x0A
  | .ldDtVx x => packXKK 0xF x 0x15
  | .ldStVx x => packXKK 0xF x 0x18
  | .addIVx x => packXKK 0xF x 0x1E
  | .ldFVx x => packXKK 0xF x 0x29
  | .ldBVx x => packXKK 0xF x 0x33
  | .ldIVx x => packXKK 0xF x 0x55
  | .ldVxI x => packXKK 0xF x 0x65

/-! ### The opcode table's columns (R100) -/

/-- The (mask, match) pair of an instruction's row of opcode_table.json. -/
def opcodeRow : Instr → Word × Word
  | .cls => (0xFFFF, 0x00E0)
  | .ret => (0xFFFF, 0x00EE)
  | .jp _ => (0xF000, 0x1000)
  | .call _ => (0xF000, 0x2000)
  | .seImm _ _ => (0xF000, 0x3000)
  | .sneImm _ _ => (0xF000, 0x4000)
  | .seReg _ _ => (0xF00F, 0x5000)
  | .ldImm _ _ => (0xF000, 0x6000)
  | .addImm _ _ => (0xF000, 0x7000)
  | .ldReg _ _ => (0xF00F, 0x8000)
  | .orReg _ _ => (0xF00F, 0x8001)
  | .andReg _ _ => (0xF00F, 0x8002)
  | .xorReg _ _ => (0xF00F, 0x8003)
  | .addReg _ _ => (0xF00F, 0x8004)
  | .sub _ _ => (0xF00F, 0x8005)
  | .shr _ _ => (0xF00F, 0x8006)
  | .subn _ _ => (0xF00F, 0x8007)
  | .shl _ _ => (0xF00F, 0x800E)
  | .sneReg _ _ => (0xF00F, 0x9000)
  | .ldI _ => (0xF000, 0xA000)
  | .jpV0 _ => (0xF000, 0xB000)
  | .rnd _ _ => (0xF000, 0xC000)
  | .drw _ _ _ => (0xF000, 0xD000)
  | .skp _ => (0xF0FF, 0xE09E)
  | .sknp _ => (0xF0FF, 0xE0A1)
  | .ldVxDt _ => (0xF0FF, 0xF007)
  | .ldVxK _ => (0xF0FF, 0xF00A)
  | .ldDtVx _ => (0xF0FF, 0xF015)
  | .ldStVx _ => (0xF0FF, 0xF018)
  | .addIVx _ => (0xF0FF, 0xF01E)
  | .ldFVx _ => (0xF0FF, 0xF029)
  | .ldBVx _ => (0xF0FF, 0xF033)
  | .ldIVx _ => (0xF0FF, 0xF055)
  | .ldVxI _ => (0xF0FF, 0xF065)

/-- "(op & mask) = match selects it" (R100). -/
def matchesRow (row : Word × Word) (op : Word) : Bool := op &&& row.1 == row.2

/-! ### The host's numbering of a table row's bits -/

/-- The instruction word of a table row whose bits are `w`: bit 0 is the least significant bit of the one 16-bit word,
and the bits above `nbits` are 0. -/
def tableWord (nbits w : Nat) : Word := BitVec.ofNat 16 (w % 2 ^ nbits)

/-- The instruction the decoder reads from a table row's word. The two bytes are laid out as memory holds them, the
high byte first (R90), and the whole table is decoded, the extras among them (log 14). -/
def decodeTableWord (nbits w : Nat) : Option Instr :=
  match decodeBytes true ((tableWord nbits w).extractLsb' 8 8) ((tableWord nbits w).extractLsb' 0 8) with
  | .instr i => some i
  | .unimplementedInstruction _ => none

end Sys2Proof
end

