-- ==== Sys2Proof/Machine/Defaults.lean ====
section
/-! DEFINITION. The fixed sizes of 00_scope.md R6, the parameter values this hardware takes (R7, 10_state.md R40), and
the reset values of 10_state.md R42 that are not plain zeros. -/

namespace Sys2Proof.Machine

/-- MEM_SIZE: addresses 0x000 … 0xFFF (R6). -/
abbrev memSize : Nat := 4096

/-- PROG_BASE (R6). -/
abbrev progBase : Nat := 0x200

/-- PROG_MAX = 4096 − 0x200 (R6). -/
abbrev progMax : Nat := 3584

/-- DISP_W (R6). -/
abbrev dispWidth : Nat := 64

/-- DISP_H (R6). -/
abbrev dispHeight : Nat := 32

/-- The pc after reset (10_state.md R42; 70_reset_and_hazards.md R331). -/
def resetPc : Word := 0x200

/-- The default FONT: the table of 10_state.md R40, one glyph of five bytes a line, digits 0 … F. -/
def defaultFont : Vector Byte 80 :=
  #v[0xF0, 0x90, 0x90, 0x90, 0xF0,
     0x20, 0x60, 0x20, 0x20, 0x70,
     0xF0, 0x10, 0xF0, 0x80, 0xF0,
     0xF0, 0x10, 0xF0, 0x10, 0xF0,
     0x90, 0x90, 0xF0, 0x10, 0x10,
     0xF0, 0x80, 0xF0, 0x10, 0xF0,
     0xF0, 0x80, 0xF0, 0x90, 0xF0,
     0xF0, 0x10, 0x20, 0x40, 0x40,
     0xF0, 0x90, 0xF0, 0x90, 0xF0,
     0xF0, 0x90, 0xF0, 0x10, 0xF0,
     0xF0, 0x90, 0xF0, 0x90, 0x90,
     0xE0, 0x90, 0xE0, 0x90, 0xE0,
     0xF0, 0x80, 0x80, 0x80, 0xF0,
     0xE0, 0x90, 0x90, 0x90, 0xE0,
     0xF0, 0x80, 0xF0, 0x80, 0xF0,
     0xF0, 0x80, 0xF0, 0x80, 0x80]

/-- "Its value for this hardware is the default shown" (R7). -/
def defaultConfig : Config where
  canonicalExtras := false
  logicResetsVF := false
  shiftUsesVy := false
  loadStoreIncrementsI := false
  reservedFetchFaults := true
  font := defaultFont

end Sys2Proof.Machine
end

