-- ==== Sys2Proof/Machine/State.lean ====
section
/-! DEFINITION. The state of the block (10_state.md R20 to R42), the fault record, and the reasons a step can stop. -/

namespace Sys2Proof.Machine

/-- The kinds of fatal condition (10_state.md R33; 60_exceptions.md R301). -/
inductive FaultKind where
  /-- raised by the decode phase alone (R302) -/
  | unimplementedInstruction
  /-- raised by CALL with sp = 16 (R303) -/
  | stackOverflow
  /-- raised by RET with sp = 0 (R304) -/
  | stackUnderflow
  /-- raised by the fetch, DRW, LD B, LD [I] and LD Vx, [I] (R305) -/
  | addressOutOfBounds
deriving DecidableEq, Repr

/-- The fault record (10_state.md R33). -/
structure FaultRecord where
  kind : FaultKind
  /-- the pc of the faulting cycle -/
  pc : Word
  /-- the word fetched, or none when the fetch itself faulted -/
  opcode : Option Word
  /-- the first out-of-range address for AddressOutOfBounds, none otherwise -/
  addr : Option Nat
deriving DecidableEq, Repr

/-- Memory as a list of (address, byte): the addresses that differ from the reset contents, strictly rising. -/
abbrev Memory := List Host.Cell

/-- The display buffer: row y is a 64-bit vector whose bit x is the pixel disp[x, y] (10_state.md R38; log 7). -/
abbrev Display := Vector (BitVec 64) 32

/-- The state of one block instance (10_state.md R42, R44). -/
structure State where
  /-- V[0] … V[15]; V[15] is VF (R20, R21) -/
  V : Vector Byte 16
  /-- the program counter (R23) -/
  pc : Word
  /-- the index register (R27) -/
  I : Word
  /-- the number of occupied stack slots, 0 … 16 (R29) -/
  sp : Fin 17
  /-- the call stack (R28) -/
  stack : Vector Word 16
  /-- the delay timer (R31) -/
  dt : Byte
  /-- memory (R41) -/
  mem : Memory
  /-- the display buffer (R38) -/
  disp : Display
  /-- the input state, written by the host (R39) -/
  key : Vector Bool 16
  /-- the fault record; the block is halted exactly when it is not none (R33) -/
  fault : Option FaultRecord
  /-- at least one cycle has been requested since reset (R35) -/
  started : Bool
  /-- a program has been loaded (R36) -/
  loaded : Bool
  /-- the sound_write port: none is idle (R52; log 5) -/
  soundWrite : Option Byte
  /-- the random input of the request being served (R49, R50; log 4) -/
  rnd : Byte
  /-- the model's own counter of free draws (log 4) -/
  draws : Nat
  /-- the parameters (00_scope.md R7; log 1) -/
  cfg : Config
deriving DecidableEq, Repr

/-- Why a step stops the machine. -/
inductive Fault where
  /-- Raised by `step` and `executeCycle` on a block that is halted already: "A model represents the halted state as a
  terminal fault with no further step" (40_cycle.md R118; log 3). It carries the record the status port shows. Safe:
  the block goes on to no state at all. The cycle that takes a fatal condition is a next state, not this. -/
  | halted (record : FaultRecord)
deriving DecidableEq, Repr

/-- Why a step has no meaning. -/
inductive Refusal where
  /-- Raised by an arm of `exec` whose instruction has no meaning yet; no arm does. Safe: no claim about it can be
  proved. -/
  | notModelled (mnemonic : String)
deriving DecidableEq, Repr

/-- What a meaning answers. -/
abbrev Result := Host.Outcome State Fault Refusal

/-- The state after reset for given parameters: the table of 10_state.md R42. Memory lists nothing, since an address
that is not listed reads as the reset contents (log 8). -/
def State.initial (cfg : Config) : State where
  V := Vector.replicate 16 0
  pc := resetPc
  I := 0
  sp := 0
  stack := Vector.replicate 16 0
  dt := 0
  mem := []
  disp := Vector.replicate 32 0
  key := Vector.replicate 16 false
  fault := none
  started := false
  loaded := false
  soundWrite := none
  rnd := 0
  draws := 0
  cfg := cfg

/-- The machine right after reset (10_state.md R42; 70_reset_and_hazards.md R330), with the parameters of this
hardware (00_scope.md R7). -/
def State.reset : State := State.initial defaultConfig

end Sys2Proof.Machine
end

