-- ==== Sys2Proof/Machine/Ops.lean ====
section
/-! DEFINITION. The named operations on memory, registers, stack, pc and display that the meanings are written over,
and taking a fatal condition. -/

namespace Sys2Proof.Machine

/-! ### Memory (spec/20_memory.md) -/

/-- What an address holds after reset and until it is written: FONT at 0x000 … 0x04F, 0 elsewhere (10_state.md R42;
log 8). -/
def resetByte (font : Vector Byte 80) (a : Nat) : Byte := if h : a < 80 then font[a] else 0

/-- The canonical form: addresses strictly rising, inside the address space, and no entry equal to the reset contents. -/
abbrev Memory.wf (font : Vector Byte 80) (m : Memory) : Prop :=
  m.Pairwise (fun c d => c.1 < d.1) ∧ ∀ c ∈ m, c.1 < memSize ∧ c.2 ≠ resetByte font c.1

/-- The byte at `a`: the listed one, or the reset contents. -/
def Memory.read (font : Vector Byte 80) : Memory → Nat → Byte
  | [], a => resetByte font a
  | (k, w) :: m, a => if k = a then w else Memory.read font m a

/-- Lists `v` at `a`, or nothing at `a` when `v` is the reset contents there. -/
def Memory.write (font : Vector Byte 80) : Memory → Nat → Byte → Memory
  | [], a, v => if v = resetByte font a then [] else [(a, v)]
  | (k, w) :: m, a, v =>
    if a < k then (if v = resetByte font a then (k, w) :: m else (a, v) :: (k, w) :: m)
    else if a = k then (if v = resetByte font a then m else (a, v) :: m)
    else (k, w) :: Memory.write font m a v

/-- mem[a] (R62, R68). Every access of a cycle is checked against the bounds first (R64), so an `a` above 0xFFF is never
read (log 13). -/
def State.byteAt (s : State) (a : Nat) : Byte := Memory.read s.cfg.font s.mem a

/-- `MemWrite(a, 1, v)` after its check: only the byte addressed changes (R68), at any address 0x000 … 0xFFF (R69). -/
def State.putByte (s : State) (a : Nat) (v : Byte) : State := { s with mem := Memory.write s.cfg.font s.mem a v }

/-- `MemRead` of n bytes at `base`, in ascending address order (00_scope.md R11; 20_memory.md R63). -/
def State.readBytes (s : State) (base n : Nat) : List Byte := (List.range n).map fun j => s.byteAt (base + j)

/-- Byte writes at `base`, base + 1, … in ascending address order (R63). -/
def State.writeBytes (s : State) (base : Nat) : List Byte → State
  | [] => s
  | b :: bs => (s.putByte base b).writeBytes (base + 1) bs

/-- The lowest address above 0xFFF among base … base + n − 1, if there is one (R64; 00_scope.md R11). -/
def firstOutOfBounds (base n : Nat) : Option Nat :=
  ((List.range n).map fun j => base + j).find? fun a => decide (0xFFF < a)

/-! ### General registers (10_state.md R20) -/

/-- V[r]. -/
def State.v (s : State) (r : Reg) : Byte := s.V[r.val]

/-- V[r] ← b. -/
def State.setV (s : State) (r : Reg) (b : Byte) : State := { s with V := s.V.set r.val b }

/-- V[0] … V[x] ← the bytes at base … base + x; the other registers keep their values (47_fclass.md R266). -/
def State.loadRegs (s : State) (x : Reg) (base : Nat) : State :=
  { s with V := Vector.ofFn fun r : Fin 16 => if r ≤ x then s.byteAt (base + r.val) else s.v r }

/-- V[0] … V[x] as bytes in register order (47_fclass.md R265). -/
def State.regsUpTo (s : State) (x : Reg) : List Byte := s.V.toList.take (x.val + 1)

/-! ### The program counter (10_state.md R23 to R25) -/

/-- pc+2: the fall-through advance (00_scope.md R12). -/
def State.advance (s : State) : State := { s with pc := s.pc + 2 }

/-- A skip: pc+4 when its condition holds and pc+2 otherwise (42_skip.md R150). -/
def State.skipIf (s : State) (taken : Bool) : State := { s with pc := if taken then s.pc + 4 else s.pc + 2 }

/-- pc ← target. -/
def State.jumpTo (s : State) (target : Word) : State := { s with pc := target }

/-- I ← w. -/
def State.setI (s : State) (w : Word) : State := { s with I := w }

/-- dt ← b. -/
def State.setDt (s : State) (b : Byte) : State := { s with dt := b }

/-- disp ← d. -/
def State.setDisp (s : State) (d : Display) : State := { s with disp := d }

/-- sound_write ← b, a strobe on the port (10_state.md R52). -/
def State.strobeSound (s : State) (b : Byte) : State := { s with soundWrite := some b }

/-! ### The call stack (10_state.md R28 to R30) -/

/-- stack[sp] ← w, sp ← sp + 1, or none when all 16 slots are occupied. -/
def State.push (s : State) (w : Word) : Option State :=
  if h : s.sp.val < 16 then
    some { s with stack := s.stack.set s.sp.val w, sp := ⟨s.sp.val + 1, by omega⟩ }
  else none

/-- sp ← sp − 1 and the word at the new stack[sp], which is not cleared, or none when the stack is empty. -/
def State.pop (s : State) : Option (Word × State) :=
  if h : 0 < s.sp.val then
    some (s.stack[s.sp.val - 1], { s with sp := ⟨s.sp.val - 1, by omega⟩ })
  else none

/-! ### The display (spec/45_display.md) -/

/-- disp[x, y]; false outside the grid. -/
def Display.pixel (d : Display) (x y : Nat) : Bool := if h : y < 32 then d[y].getLsbD x else false

/-- disp[x, y] ← disp[x, y] XOR 1, for a pixel inside the grid. -/
def Display.flip (d : Display) (x y : Nat) : Display :=
  if h : y < 32 then d.set y (d[y] ^^^ (1#64 <<< x)) else d

/-- All pixels dark. -/
def Display.clear : Display := Vector.replicate 32 0

/-- One pixel of a sprite row (R222): column c of row byte b is bit 7 − c (R221). A pixel outside the grid is dropped
(R223). The Bool says whether a lit pixel has been erased so far (R224). -/
def drawPixel (ox py : Nat) (b : Byte) (acc : Display × Bool) (c : Nat) : Display × Bool :=
  if b.getLsbD (7 - c) && decide (ox + c < dispWidth) && decide (py < dispHeight) then
    (acc.1.flip (ox + c) py, acc.2 || acc.1.pixel (ox + c) py)
  else acc

/-- The eight columns of one sprite row, left to right (R222). -/
def drawRow (ox py : Nat) (b : Byte) (acc : Display × Bool) : Display × Bool :=
  (List.range 8).foldl (drawPixel ox py b) acc

/-- The rows of a sprite, top to bottom, the first at line `py` (R222). -/
def drawRows (ox py : Nat) : List Byte → Display × Bool → Display × Bool
  | [], acc => acc
  | b :: bs, acc => drawRows ox (py + 1) bs (drawRow ox py b acc)

/-! ### Taking a fatal condition (40_cycle.md R116; 60_exceptions.md R300, R309) -/

/-- Fault entry: the record is written, with the pc of the faulting cycle, and started is set; no other state changes,
and the block is halted from then on. -/
def State.raise (s : State) (kind : FaultKind) (opcode : Option Word) (addr : Option Nat) : State :=
  { s with fault := some { kind := kind, pc := s.pc, opcode := opcode, addr := addr }, started := true }

/-- An instruction `i` that accesses the n bytes at I: it checks every address before it writes anything (20_memory.md
R65), takes AddressOutOfBounds with the lowest address out of range (R64), and otherwise has its effect `t`. The recorded
opcode is the word of `i` (log 2). -/
def accessAtI (i : Instr) (n : Nat) (s t : State) : Result :=
  match firstOutOfBounds s.I.toNat n with
  | some a => .next (s.raise .addressOutOfBounds (some (encode i)) (some a))
  | none => .next t

end Sys2Proof.Machine
end

