-- ==== Sys2Proof/Machine/Flags.lean ====
section
/-! DEFINITION. What the flag-writing instructions leave in VF (10_state.md R21). -/

namespace Sys2Proof.Machine

/-- A flag as the byte VF holds: 1 or 0. -/
def flagByte (b : Bool) : Byte := if b then 1 else 0

/-- The carry of a + b: "1 iff the unwrapped sum exceeds 255" (43_alu.md R177). -/
def carryOut (a b : Byte) : Bool := decide (255 < a.toNat + b.toNat)

/-- NOT borrow of a − b: a ≥ b (43_alu.md R178, R179). -/
def noBorrow (a b : Byte) : Bool := decide (b.toNat ≤ a.toNat)

/-- The bit a right shift drops (43_alu.md R180). -/
def droppedRight (a : Byte) : Bool := a.getLsbD 0

/-- The bit a left shift drops (43_alu.md R181). -/
def droppedLeft (a : Byte) : Bool := a.getLsbD 7

/-- A result in V[x] and then a flag in VF, in that order, so that VF holds the flag when x = F (43_alu.md R170). -/
def State.setResultThenFlag (s : State) (x : Reg) (result : Byte) (flag : Bool) : State :=
  (s.setV x result).setV VF (flagByte flag)

/-- A logic result in V[x], and then VF ← 0 when LOGIC_RESETS_VF (43_alu.md R174). -/
def State.setLogic (s : State) (x : Reg) (result : Byte) : State :=
  if s.cfg.logicResetsVF then (s.setV x result).setV VF 0 else s.setV x result

end Sys2Proof.Machine
end

