-- ==== Sys2Proof/Machine/Operands.lean ====
section
/-! DEFINITION. The operands that are more than a register or an immediate. -/

namespace Sys2Proof.Machine

/-- The low nibble `b & 0x0F` as an index. -/
def lowNibble (b : Byte) : Fin 16 := (b.extractLsb' 0 4).toFin

/-- The key that V[x] names: `k = V[x] & 0x0F` (46_keypad.md R240). -/
def State.keyIndex (s : State) (x : Reg) : Fin 16 := lowNibble (s.v x)

/-- key[k] (10_state.md R39). -/
def State.keyDown (s : State) (k : Fin 16) : Bool := s.key[k.val]

/-- `min (k | key[k])`, the lowest pressed key, if any is pressed (46_keypad.md R243). -/
def State.firstKey (s : State) : Option (Fin 16) := (List.finRange 16).find? s.keyDown

/-- `0x000 + 5 × (V[x] & 0x0F)`, the font glyph of a digit (47_fclass.md R263). -/
def State.glyphAddress (s : State) (x : Reg) : Word := BitVec.ofNat 16 (5 * (lowNibble (s.v x)).val)

/-- The operand a shift shifts: V[y] when SHIFT_USES_VY, V[x] otherwise (43_alu.md R180). -/
def State.shiftSource (s : State) (x y : Reg) : Byte := if s.cfg.shiftUsesVy then s.v y else s.v x

/-- V[x] mod 64, the column of a sprite's origin (45_display.md R223). -/
def State.originX (s : State) (x : Reg) : Nat := (s.v x).toNat % dispWidth

/-- V[y] mod 32, the line of a sprite's origin (45_display.md R223). -/
def State.originY (s : State) (y : Reg) : Nat := (s.v y).toNat % dispHeight

/-- The hundreds, tens and units of a byte (47_fclass.md R264). -/
def bcdDigits (b : Byte) : List Byte :=
  [BitVec.ofNat 8 (b.toNat / 100), BitVec.ofNat 8 (b.toNat / 10 % 10), BitVec.ofNat 8 (b.toNat % 10)]

/-- What Fx55 and Fx65 leave in I: I + x + 1 when LOADSTORE_INCREMENTS_I, I otherwise (47_fclass.md R265). -/
def State.indexAfterBlock (s : State) (x : Reg) : Word :=
  if s.cfg.loadStoreIncrementsI then BitVec.ofNat 16 (s.I.toNat + x.val + 1) else s.I

end Sys2Proof.Machine
end

