-- ==== Sys2Proof/Machine/Alu.lean ====
section
/-! DEFINITION. Register load and arithmetic/logic (spec/43_alu.md). Arithmetic wraps modulo 256 (R170). -/

namespace Sys2Proof.Machine

/-- LD Vx, byte (R171). -/
def execLdImm (x : Reg) (kk : Byte) (s : State) : Result := .next (s.setV x kk).advance

/-- ADD Vx, byte (R172): no flag. -/
def execAddImm (x : Reg) (kk : Byte) (s : State) : Result := .next (s.setV x (s.v x + kk)).advance

/-- LD Vx, Vy, an extra (R173). -/
def execLdReg (x y : Reg) (s : State) : Result := .next (s.setV x (s.v y)).advance

/-- OR Vx, Vy (R174). -/
def execOrReg (x y : Reg) (s : State) : Result := .next (s.setLogic x (s.v x ||| s.v y)).advance

/-- AND Vx, Vy (R175). -/
def execAndReg (x y : Reg) (s : State) : Result := .next (s.setLogic x (s.v x &&& s.v y)).advance

/-- XOR Vx, Vy (R176). -/
def execXorReg (x y : Reg) (s : State) : Result := .next (s.setLogic x (s.v x ^^^ s.v y)).advance

/-- ADD Vx, Vy (R177): VF is the carry. -/
def execAddReg (x y : Reg) (s : State) : Result :=
  .next (s.setResultThenFlag x (s.v x + s.v y) (carryOut (s.v x) (s.v y))).advance

/-- SUB Vx, Vy (R178): VF is NOT borrow. -/
def execSub (x y : Reg) (s : State) : Result :=
  .next (s.setResultThenFlag x (s.v x - s.v y) (noBorrow (s.v x) (s.v y))).advance

/-- SUBN Vx, Vy, an extra (R179): VF is NOT borrow of V[y] − V[x]. -/
def execSubn (x y : Reg) (s : State) : Result :=
  .next (s.setResultThenFlag x (s.v y - s.v x) (noBorrow (s.v y) (s.v x))).advance

/-- SHR Vx (R180): VF is the bit shifted out. -/
def execShr (x y : Reg) (s : State) : Result :=
  .next (s.setResultThenFlag x (s.shiftSource x y >>> 1) (droppedRight (s.shiftSource x y))).advance

/-- SHL Vx (R181): VF is the bit shifted out. -/
def execShl (x y : Reg) (s : State) : Result :=
  .next (s.setResultThenFlag x (s.shiftSource x y <<< 1) (droppedLeft (s.shiftSource x y))).advance

end Sys2Proof.Machine
end

