-- ==== Sys2Proof/Machine/FClass.lean ====
section
/-! DEFINITION. Miscellaneous F-class instructions (spec/47_fclass.md). -/

namespace Sys2Proof.Machine

/-- LD Vx, DT (R261): dt before this cycle's decrement. -/
def execLdVxDt (x : Reg) (s : State) : Result := .next (s.setV x s.dt).advance

/-- LD DT, Vx (R262): the timer phase of the same cycle comes after. -/
def execLdDtVx (x : Reg) (s : State) : Result := .next (s.setDt (s.v x)).advance

/-- LD ST, Vx, an extra (R271): a strobe on the sound_write port (10_state.md R52; log 5). -/
def execLdStVx (x : Reg) (s : State) : Result := .next (s.strobeSound (s.v x)).advance

/-- ADD I, Vx, an extra (R272): modulo 2^16, VF unchanged. -/
def execAddIVx (x : Reg) (s : State) : Result := .next (s.setI (s.I + (s.v x).setWidth 16)).advance

/-- LD F, Vx (R263). -/
def execLdFVx (x : Reg) (s : State) : Result := .next (s.setI (s.glyphAddress x)).advance

/-- LD B, Vx (R264): hundreds, tens and units at I, I + 1, I + 2. -/
def execLdBVx (x : Reg) (s : State) : Result :=
  accessAtI (.ldBVx x) 3 s (s.writeBytes s.I.toNat (bcdDigits (s.v x))).advance

/-- LD [I], Vx (R265): V0 … Vx at I … I + x. -/
def execLdIVx (x : Reg) (s : State) : Result :=
  accessAtI (.ldIVx x) (x.val + 1) s
    ((s.writeBytes s.I.toNat (s.regsUpTo x)).setI (s.indexAfterBlock x)).advance

/-- LD Vx, [I] (R266): V0 … Vx from I … I + x. -/
def execLdVxI (x : Reg) (s : State) : Result :=
  accessAtI (.ldVxI x) (x.val + 1) s
    ((s.loadRegs x s.I.toNat).setI (s.indexAfterBlock x)).advance

end Sys2Proof.Machine
end

