-- ==== Sys2Proof/Machine/Flow.lean ====
section
/-! DEFINITION. Control transfer (spec/41_flow.md). -/

namespace Sys2Proof.Machine

/-- RET (R131): the popped value is the address of the CALL, so + 2 resumes after it. -/
def execRet (s : State) : Result :=
  match s.pop with
  | none => .next (s.raise .stackUnderflow (some (encode .ret)) none)
  | some (w, t) => .next (t.jumpTo (w + 2))

/-- JP addr (R132). -/
def execJp (nnn : Addr) (s : State) : Result := .next (s.jumpTo (zext16 nnn))

/-- CALL addr (R133): the pushed value is the call's own address. -/
def execCall (nnn : Addr) (s : State) : Result :=
  match s.push s.pc with
  | none => .next (s.raise .stackOverflow (some (encode (.call nnn))) none)
  | some t => .next (t.jumpTo (zext16 nnn))

/-- JP V0, addr, an extra (R134). -/
def execJpV0 (nnn : Addr) (s : State) : Result := .next (s.jumpTo (zext16 nnn + (s.v 0).setWidth 16))

end Sys2Proof.Machine
end

