-- ==== Sys2Proof/Machine/IndexRandom.lean ====
section
/-! DEFINITION. Load index and random (spec/44_index_random.md). -/

namespace Sys2Proof.Machine

/-- LD I, addr (R201). -/
def execLdI (nnn : Addr) (s : State) : Result := .next (s.setI (zext16 nnn)).advance

/-- RND Vx, byte (R202): the random input of this request under a mask (log 4). -/
def execRnd (x : Reg) (kk : Byte) (s : State) : Result := .next (s.setV x (s.rnd &&& kk)).advance

end Sys2Proof.Machine
end

