-- ==== Sys2Proof/Machine/Keypad.lean ====
section
/-! DEFINITION. Keypad instructions (spec/46_keypad.md). -/

namespace Sys2Proof.Machine

/-- SKP Vx (R241). -/
def execSkp (x : Reg) (s : State) : Result := .next (s.skipIf (s.keyDown (s.keyIndex x)))

/-- SKNP Vx (R242). -/
def execSknp (x : Reg) (s : State) : Result := .next (s.skipIf (!s.keyDown (s.keyIndex x)))

/-- LD Vx, K, an extra (R243): pc stays until a key is pressed. -/
def execLdVxK (x : Reg) (s : State) : Result :=
  match s.firstKey with
  | some k => .next (s.setV x (BitVec.ofNat 8 k.val)).advance
  | none => .next s

end Sys2Proof.Machine
end

