-- ==== Sys2Proof/Machine/Raster.lean ====
section
/-! DEFINITION. Clear-screen and the sprite rasteriser (spec/45_display.md). -/

namespace Sys2Proof.Machine

/-- CLS (R220). -/
def execCls (s : State) : Result := .next (s.setDisp Display.clear).advance

/-- The display and the collision of a draw: the n bytes at I as rows, from the wrapped origin (R222, R223). -/
def State.drawn (s : State) (x y : Reg) (n : Rows) : Display × Bool :=
  drawRows (s.originX x) (s.originY y) (s.readBytes s.I.toNat n.val) (s.disp, false)

/-- DRW Vx, Vy, n (R222): origin and base are read before VF is written (R225). -/
def execDrw (x y : Reg) (n : Rows) (s : State) : Result :=
  accessAtI (.drw x y n) n.val s
    ((s.setDisp (s.drawn x y n).1).setV VF (flagByte (s.drawn x y n).2)).advance

end Sys2Proof.Machine
end

