-- ==== Sys2Proof/Machine/Skip.lean ====
section
/-! DEFINITION. Conditional skips on registers (spec/42_skip.md). -/

namespace Sys2Proof.Machine

/-- SE Vx, byte (R151). -/
def execSeImm (x : Reg) (kk : Byte) (s : State) : Result := .next (s.skipIf (s.v x == kk))

/-- SNE Vx, byte (R152). -/
def execSneImm (x : Reg) (kk : Byte) (s : State) : Result := .next (s.skipIf (s.v x != kk))

/-- SE Vx, Vy (R153). -/
def execSeReg (x y : Reg) (s : State) : Result := .next (s.skipIf (s.v x == s.v y))

/-- SNE Vx, Vy (R154). -/
def execSneReg (x y : Reg) (s : State) : Result := .next (s.skipIf (s.v x != s.v y))

end Sys2Proof.Machine
end

