-- ==== Sys2Proof/Machine/Cycle.lean ====
section
/-! DEFINITION. One cycle: the execute_cycle port (spec/40_cycle.md R110 to R120). -/

namespace Sys2Proof.Machine

/-- What a request does before its fetch: started is set (R119), the random input is taken (10_state.md R49), and
sound_write, which carries a value for one cycle only, is idle (10_state.md R52; log 5). -/
def State.beginCycle (s : State) (rnd : Byte) : State := { s with started := true, rnd := rnd, soundWrite := none }

/-- One more free draw has been taken (log 4). -/
def State.countDraw (s : State) : State := { s with draws := s.draws + 1 }

/-- The fetch check (R111): the address a fetch at pc faults on, if it faults. -/
def State.fetchFault (s : State) : Option Nat :=
  if s.cfg.reservedFetchFaults && decide (s.pc.toNat < progBase) then some s.pc.toNat
  else firstOutOfBounds s.pc.toNat 2

/-- The fetched opcode, big-endian (R112; 20_memory.md R63). -/
def State.fetchWord (s : State) : Word := wordOfBytes (s.byteAt s.pc.toNat) (s.byteAt (s.pc.toNat + 1))

/-- dt > 0 counts down by one, 0 stays 0 (R115). -/
def timerNext (dt : Byte) : Byte := if dt = 0 then 0 else dt - 1

/-- The timer phase of a state that the execute phase left: dt counts down unless the cycle faulted (R115, R116). -/
def State.tick (t : State) : State := if t.fault.isSome then t else t.setDt (timerNext t.dt)

/-- The timer phase, the last act of a cycle that did not fault (R115, R116). -/
def timerPhase : Result → Result
  | .next t => .next t.tick
  | .fault r => .fault r
  | .refused r => .refused r

/-- Fetch, decode, execute and timer phase of a block that is not halted (R120). -/
def State.cycle (s : State) : Result :=
  match s.fetchFault with
  | some a => .next (s.raise .addressOutOfBounds none (some a))
  | none =>
    match decode s.cfg.canonicalExtras s.fetchWord with
    | .unimplementedInstruction op => .next (s.raise .unimplementedInstruction (some op) none)
    | .instr i => timerPhase (exec i s)

/-- `execute_cycle(rnd)` (R120). A halted block makes no step (R118; log 3). -/
def executeCycle (rnd : Byte) (s : State) : Result :=
  match s.fault with
  | some record => .fault (.halted record)
  | none => (s.beginCycle rnd).cycle

/-- Stores an instruction word where the next fetch reads it, the high byte at pc (R112), and turns CANONICAL_EXTRAS on
when the word is an extra's, since no fetch reads one otherwise (log 9). A byte outside memory is not stored. -/
def State.placeFetchWord (s : State) (op : Word) : State :=
  let a := s.pc.toNat
  let t := if a < memSize then s.putByte a (op.extractLsb' 8 8) else s
  let t := if a + 1 < memSize then t.putByte (a + 1) (op.extractLsb' 0 8) else t
  match decode false op, decode true op with
  | .unimplementedInstruction _, .instr _ => { t with cfg := { t.cfg with canonicalExtras := true } }
  | _, _ => t

end Sys2Proof.Machine
end

