-- ==== Sys2Proof/Machine/Step.lean ====
section
/-! DEFINITION. The step of the machine: one execute_cycle request whose random input is a free draw (10_state.md R49,
R50; 40_cycle.md R120), and the host's way of placing one instruction. -/

namespace Sys2Proof.Machine

/-- One request. Its random byte is the next free draw, so a claim about a step holds for every byte (log 4). -/
def step (s : State) : Host.Outcome State Fault Refusal :=
  executeCycle (Config.freeRnd s.draws) s.countDraw

/-- `s` with the instruction of a table row stored where `step` fetches (log 9). -/
def State.withFetchWord (s : State) (nbits w : Nat) : State := s.placeFetchWord (tableWord nbits w)

end Sys2Proof.Machine
end

