-- ==== Sys2Proof/Machine/Ports.lean ====
section
/-! DEFINITION. The block's other ports (10_state.md R45 to R52): reset, load_program, set_keys, display, status and
sound_write. The execute_cycle port is `executeCycle` of Machine/Cycle.lean. -/

namespace Sys2Proof.Machine

/-- `reset` (R46): every piece of state takes its reset value, except key, which the host owns. The parameters and the
counter of free draws are not the block's state and stay (log 16). -/
def State.portReset (s : State) : State := { State.initial s.cfg with key := s.key, draws := s.draws }

/-- The results of the load port (60_exceptions.md R301). -/
inductive LoadResult where
  | ok
  | romTooLarge
  | loadRefused
deriving DecidableEq, Repr

/-- The result codes of the load port (60_exceptions.md R301). -/
def LoadResult.code : LoadResult → Nat
  | .ok => 0
  | .romTooLarge => 1
  | .loadRefused => 2

/-- `load_program(b)` (20_memory.md R70, R71): the checks in the order of R71, then the copy. -/
def State.loadProgram (s : State) (b : List Byte) : LoadResult × State :=
  if s.started || s.loaded then (.loadRefused, s)
  else if progMax < b.length then (.romTooLarge, s)
  else (.ok, { s.writeBytes progBase b with loaded := true })

/-- `set_keys(k)` (R48). -/
def State.setKeys (s : State) (k : Vector Bool 16) : State := { s with key := k }

/-- The display port (R51): 2048 bytes 0 or 1 in the order index = x + 64·y. -/
def State.displayPort (s : State) : List Byte :=
  (List.range (dispWidth * dispHeight)).map fun i =>
    if s.disp.pixel (i % dispWidth) (i / dispWidth) then 1 else 0

/-- halted = (fault ≠ none) (R33, R52). -/
def State.halted (s : State) : Bool := s.fault.isSome

/-- The status port (R52): the fault record and halted. -/
def State.statusPort (s : State) : Option FaultRecord × Bool := (s.fault, s.halted)

/-- The code values of the status port (60_exceptions.md R301). -/
def FaultKind.code : FaultKind → Nat
  | .unimplementedInstruction => 1
  | .stackOverflow => 2
  | .stackUnderflow => 3
  | .addressOutOfBounds => 4

/-- The code on the status port, 0 when there is no fault (60_exceptions.md R301). -/
def State.faultCode (s : State) : Nat := match s.fault with
  | none => 0
  | some r => r.kind.code

/-- The sound_write port after a cycle: the strobed value, or none when it was idle (R52). -/
def State.soundWritePort (s : State) : Option Byte := s.soundWrite

end Sys2Proof.Machine
end

