-- ==== Sys2Proof/Safety.lean ====
section
/-! DEFINITION. The terms claims use: the states a host can bring the block to, the invariant of those states
(10_state.md R43), what may change what, and a sprite as a formula. -/

namespace Sys2Proof.Machine

/-! ### Fetching -/

/-- A fetch at pc raises nothing (10_state.md R26; 40_cycle.md R111). -/
def State.fetchable (s : State) : Prop :=
  (s.cfg.reservedFetchFaults = true → 0x200 ≤ s.pc.toNat) ∧ s.pc.toNat ≤ 0xFFE

/-- The word `(mem[p] << 8) | mem[p+1]` at p = pc (40_cycle.md R112). -/
def State.opcodeAtPc (s : State) : Word :=
  (s.byteAt s.pc.toNat).setWidth 16 <<< 8 ||| (s.byteAt (s.pc.toNat + 1)).setWidth 16

/-- The state after one request for each random byte of the list, or none when one of them found the block halted. -/
def runCycles : List Byte → State → Option State
  | [], s => some s
  | b :: bs, s =>
    match executeCycle b s with
    | .next t => runCycles bs t
    | .fault _ => none
    | .refused _ => none

/-! ### The invariant (10_state.md R43) -/

/-- The largest pc a run can reach (10_state.md R43). -/
def pcBound (cfg : Config) : Nat := if cfg.canonicalExtras then 0x10FE else 0x1002

/-- The shape of a fault record (10_state.md R33): addr for AddressOutOfBounds alone, opcode missing only when the fetch
faulted, and an address that is out of range or, for a fetch, reserved. -/
def FaultRecord.wf (r : FaultRecord) : Prop :=
  (r.addr.isSome = true ↔ r.kind = .addressOutOfBounds) ∧
  (r.opcode = none → r.kind = .addressOutOfBounds) ∧
  ∀ a, r.addr = some a → 0xFFF < a ∨ (r.opcode = none ∧ a = r.pc.toNat ∧ a < 0x200)

/-- What every state of a run satisfies: memory in canonical form, pc and the occupied stack slots within their bounds
(R43), and a fault record that has R33's shape, names the pc the block halted at, and is written only by a request. -/
structure Inv (s : State) : Prop where
  mem_wf : Memory.wf s.cfg.font s.mem
  pc_le : s.pc.toNat ≤ pcBound s.cfg
  stack_le : ∀ j : Fin 16, j.val < s.sp.val → s.stack[j.val].toNat ≤ 0xFFE
  record_wf : ∀ r, s.fault = some r → r.wf ∧ r.pc = s.pc ∧ s.started = true

/-- The states a host can bring a block with parameters `cfg` to, by any sequence of port operations (10_state.md R45)
with any keys, any program and any random bytes. A request on a halted block changes nothing (40_cycle.md R118) and
needs no case. -/
inductive Reachable (cfg : Config) : State → Prop where
  | initial : Reachable cfg (State.initial cfg)
  | reset {s : State} : Reachable cfg s → Reachable cfg s.portReset
  | load {s : State} (b : List Byte) : Reachable cfg s → Reachable cfg (s.loadProgram b).2
  | setKeys {s : State} (k : Vector Bool 16) : Reachable cfg s → Reachable cfg (s.setKeys k)
  | cycle {s t : State} (rnd : Byte) : Reachable cfg s → executeCycle rnd s = .next t → Reachable cfg t

/-! ### What may change what -/

/-- The general registers an instruction may write (10_state.md R21, R22). -/
def mayWriteReg (cfg : Config) : Instr → Reg → Bool
  | .ldImm x _, r | .addImm x _, r | .ldReg x _, r | .rnd x _, r | .ldVxDt x, r | .ldVxK x, r => r == x
  | .orReg x _, r | .andReg x _, r | .xorReg x _, r => r == x || (cfg.logicResetsVF && r == VF)
  | .addReg x _, r | .sub x _, r | .subn x _, r | .shr x _, r | .shl x _, r => r == x || r == VF
  | .drw _ _ _, r => r == VF
  | .ldVxI x, r => decide (r ≤ x)
  | _, _ => false

/-- The instructions that may write I (10_state.md R27). -/
def mayWriteI (cfg : Config) : Instr → Bool
  | .ldI _ | .ldFVx _ | .addIVx _ => true
  | .ldIVx _ | .ldVxI _ => cfg.loadStoreIncrementsI
  | _ => false

/-- How many bytes at I an instruction stores (20_memory.md R67). -/
def bytesStored : Instr → Nat
  | .ldBVx _ => 3
  | .ldIVx x => x.val + 1
  | _ => 0

/-- How many bytes at I an instruction accesses (20_memory.md R67). -/
def bytesAccessed : Instr → Nat
  | .drw _ _ n => n.val
  | .ldBVx _ => 3
  | .ldIVx x | .ldVxI x => x.val + 1
  | _ => 0

/-- The instructions that read key (10_state.md R39). -/
def readsKey : Instr → Bool
  | .skp _ | .sknp _ | .ldVxK _ => true
  | _ => false

/-! ### A sprite as a formula -/

/-- The sprite of `DRW Vx, Vy, n` has a set bit at the pixel (px, py), where the origin is (V[x] mod 64, V[y] mod 32)
and row r column c is bit 7 − c of mem[I + r] (45_display.md R221, R222). -/
def State.spriteBit (s : State) (x y : Reg) (n : Rows) (px py : Nat) : Bool :=
  decide (s.originX x ≤ px) && decide (px < s.originX x + 8) &&
    decide (s.originY y ≤ py) && decide (py < s.originY y + n.val) &&
    (s.byteAt (s.I.toNat + (py - s.originY y))).getLsbD (7 - (px - s.originX x))

end Sys2Proof.Machine
end

