-- ==== Sys2Proof/Certificates/Slice0/Obligations.lean ====
section
/-! DEFINITION. The statements for the provers. Each docstring names the rule of spec/ a statement comes from. A rule that
the spec marks as its own decision, derivation or general knowledge (log 11) is named as such. -/

open Sys2Proof Sys2Proof.Machine

/-! ### Reset -/

/-- 10_state.md R42, 70_reset_and_hazards.md R330: what reset leaves, for every parameter record. The zeros of I, the
stack, memory outside the font, the display and key are the spec's decision D27 (log 10). -/
def Obligations.ResetTable : Prop :=
  State.reset = State.initial defaultConfig ∧ ∀ (cfg : Config) (s : State), s = State.initial cfg →
    (∀ r, s.v r = 0) ∧ s.pc = 0x200 ∧ s.I = 0 ∧ s.sp = 0 ∧ (∀ j : Fin 16, s.stack[j.val] = 0) ∧ s.dt = 0 ∧
    (∀ a : Fin 80, s.byteAt a.val = cfg.font[a.val]) ∧ (∀ a, 0x50 ≤ a → a ≤ 0xFFF → s.byteAt a = 0) ∧
    (∀ x y, x < 64 → y < 32 → s.disp.pixel x y = false) ∧ (∀ k : Fin 16, s.key[k.val] = false) ∧
    s.fault = none ∧ s.started = false ∧ s.loaded = false

/-- 70_reset_and_hazards.md R331: the entry point is 0x200; the first fetch after reset reads mem[0x200] and mem[0x201],
and a program is loaded verbatim from 0x200 on, whatever its length. -/
def Obligations.EntryPointIsProgramStart : Prop :=
  ∀ (cfg : Config) (b : List Byte), b.length ≤ 3584 →
    (State.initial cfg).pc = 0x200 ∧
    ∃ t, (State.initial cfg).loadProgram b = (.ok, t) ∧ t.pc = 0x200 ∧ t.started = false ∧
      t.fetchWord = t.byteAt 0x200 ++ t.byteAt 0x201 ∧ ∀ j (hj : j < b.length), t.byteAt (0x200 + j) = b[j]

/-! ### Encoding -/

/-- 30_encoding.md R92, R95 (marked general knowledge): decoding the word of an instruction the machine has gives the
instruction back, with every operand at every value. -/
def Obligations.DecodeOfEncode : Prop :=
  ∀ (cfg : Config) (i : Instr), i.wellFormed cfg = true → decode cfg.canonicalExtras (encode i) = .instr i

/-- 30_encoding.md R95, R99: a word that decodes is the word of the instruction it decodes to, and the machine has that
instruction; so no two words decode to one instruction. -/
def Obligations.EncodeOfDecode : Prop :=
  ∀ (cfg : Config) (op : Word) (i : Instr), decode cfg.canonicalExtras op = .instr i →
    encode i = op ∧ i.wellFormed cfg = true

/-- 30_encoding.md R100 (marked derived): a word is UnimplementedInstruction, with the word itself, exactly when it
matches no row of the opcode table that the parameters admit. -/
def Obligations.DecodeRejectsExactlyUnmatchedWords : Prop :=
  ∀ (cfg : Config) (op : Word),
    (∀ w, decode cfg.canonicalExtras op = .unimplementedInstruction w → w = op) ∧
    (decode cfg.canonicalExtras op = .unimplementedInstruction op ↔
      ∀ i : Instr, i.wellFormed cfg = true → matchesRow (opcodeRow i) op = false)

/-- 30_encoding.md R100 (marked derived): no two rows of the opcode table match the same word. -/
def Obligations.OpcodeRowsDisjoint : Prop :=
  ∀ (i j : Instr) (op : Word), matchesRow (opcodeRow i) op = true → matchesRow (opcodeRow j) op = true →
    opcodeRow i = opcodeRow j

/-- 30_encoding.md R97 and 41_flow.md R135 (the spec's decisions D1, D4): the illegal encodings, listed class by class. -/
def Obligations.IllegalEncodingsRejected : Prop :=
  ∀ (ext : Bool) (op : Word),
    (classOf op = 0x0 ∧ op ≠ 0x00E0 ∧ op ≠ 0x00EE) ∨
    ((classOf op = 0x5 ∨ classOf op = 0x9) ∧ fieldN op ≠ 0) ∨
    (classOf op = 0x8 ∧ (fieldN op).val ∈ [0x8, 0x9, 0xA, 0xB, 0xC, 0xD, 0xF]) ∨
    (classOf op = 0xE ∧ (fieldKK op).toNat ∉ [0x9E, 0xA1]) ∨
    (classOf op = 0xF ∧ (fieldKK op).toNat ∉ [0x07, 0x0A, 0x15, 0x18, 0x1E, 0x29, 0x33, 0x55, 0x65]) ∨
    (ext = false ∧ (classOf op = 0xB ∨ (classOf op = 0x8 ∧ (fieldN op).val ∈ [0x0, 0x7]) ∨
      (classOf op = 0xF ∧ (fieldKK op).toNat ∈ [0x0A, 0x18, 0x1E]))) →
    decode ext op = .unimplementedInstruction op

/-- 30_encoding.md R93: the words the source shows, as instructions. -/
def Obligations.ShownWordsDecode : Prop :=
  ∀ ext : Bool, decode ext 0x600A = .instr (.ldImm 0 0x0A) ∧ decode ext 0x610B = .instr (.ldImm 1 0x0B) ∧
    decode ext 0x8014 = .instr (.addReg 0 1) ∧ decode ext 0x2250 = .instr (.call 0x250) ∧
    decode ext 0x00EE = .instr .ret

/-! ### The cycle -/

/-- 40_cycle.md R112, R114, R115 (the spec's decision D13) and R120, with the model's latches (log 4, log 5): when the word at pc decodes to an instruction, a step runs exec of that
instruction on the same state, pc not advanced, with the request's bookkeeping done (started set, the random byte taken,
sound_write idle), and then the timer phase unless the instruction faulted. -/
def Obligations.StepRunsDecodedInstruction : Prop :=
  ∀ (s : State) (i : Instr), s.fault = none → s.fetchable → decode s.cfg.canonicalExtras s.opcodeAtPc = .instr i →
    ∃ t, exec i { s with started := true, rnd := Config.freeRnd s.draws, soundWrite := none, draws := s.draws + 1 } =
        .next t ∧
      step s = .next (if t.fault = none then { t with dt := if t.dt = 0 then 0 else t.dt - 1 } else t)

/-- 40_cycle.md R111 (the spec's decisions D8, D9): when a fetch faults, with which address, and that nothing but the
record and the request's bookkeeping changes. -/
def Obligations.FetchFaultsAsListed : Prop :=
  ∀ (rnd : Byte) (s : State), s.fault = none → ¬ s.fetchable →
    executeCycle rnd s = .next
      { s with
        started := true, rnd := rnd, soundWrite := none
        fault := some
          { kind := .addressOutOfBounds, pc := s.pc, opcode := none
            addr := some (if s.cfg.reservedFetchFaults = true ∧ s.pc.toNat < 0x200 then s.pc.toNat
              else if s.pc.toNat = 0xFFF then 0x1000 else s.pc.toNat) } }

/-- 40_cycle.md R113: a word that does not decode makes the cycle fault with kind UnimplementedInstruction, the pc, the
opcode, and no addr. (That nothing else changes is FaultsArePrecise.) -/
def Obligations.UndecodableWordFaults : Prop :=
  ∀ (rnd : Byte) (s : State) (op : Word), s.fault = none → s.fetchable →
    decode s.cfg.canonicalExtras s.opcodeAtPc = .unimplementedInstruction op →
    ∃ t, executeCycle rnd s = .next t ∧
      t.fault = some { kind := .unimplementedInstruction, pc := s.pc, opcode := some s.opcodeAtPc, addr := none }

/-- 40_cycle.md R116, 60_exceptions.md R309 (the spec's decision D6): a faulting cycle leaves the state as it was but for
the fault record, started and the two port latches of the model (log 4, log 5), and the record names the pc and the
fetched word. -/
def Obligations.FaultsArePrecise : Prop :=
  ∀ (rnd : Byte) (s t : State) (r : FaultRecord), s.fault = none → executeCycle rnd s = .next t → t.fault = some r →
    t = { s with started := true, rnd := rnd, soundWrite := none, fault := some r } ∧ r.pc = s.pc ∧ r.wf ∧
    (s.fetchable ↔ r.opcode = some s.opcodeAtPc)

/-- 40_cycle.md R118, 60_exceptions.md R310 (the spec's decision D7): a halted block makes no step, and no port but
reset ends the halt. -/
def Obligations.HaltLastsUntilReset : Prop :=
  ∀ (s : State) (r : FaultRecord), s.fault = some r →
    (∀ rnd, executeCycle rnd s = .fault (.halted r)) ∧ step s = .fault (.halted r) ∧
    (∀ k, (s.setKeys k).fault = some r) ∧ (∀ b, (s.loadProgram b).2.fault = some r) ∧ s.portReset.fault = none

/-- 60_exceptions.md R300, R312: a block that is not halted always answers a next state, whatever its registers, memory
and program hold; a step never refuses. -/
def Obligations.RunningBlockAlwaysSteps : Prop :=
  ∀ s : State, (s.fault = none → ∃ t, step s = .next t ∧ t.started = true) ∧
    (∀ q, step s ≠ .refused q) ∧ (∀ f, step s = .fault f → ∃ r, s.fault = some r ∧ f = .halted r)

/-- 10_state.md R31: Fx15 writes dt and Fx07 reads it; no other instruction writes it; and it is decremented once per
completed cycle when nonzero, from the value the instruction left, and never goes below 0. The place of the count in the
cycle is 40_cycle.md R115, the spec's decision D13; R261 and R262 are marked general knowledge. -/
def Obligations.DelayTimerCountsCycles : Prop :=
  (∀ (x : Reg) (s : State), ∃ t, exec (.ldDtVx x) s = .next t ∧ t = { s with dt := s.v x, pc := s.pc + 2 }) ∧
  (∀ (x : Reg) (s : State), ∃ t, exec (.ldVxDt x) s = .next t ∧ t.v x = s.dt ∧ (∀ r, r ≠ x → t.v r = s.v r) ∧
    t = { s with V := t.V, pc := s.pc + 2 }) ∧
  (∀ (i : Instr) (s t : State), (∀ x, i ≠ .ldDtVx x) → exec i s = .next t → t.dt = s.dt) ∧
  (∀ (rnd : Byte) (s t : State), s.fault = none → executeCycle rnd s = .next t → t.fault = none →
    ∃ i u, decode s.cfg.canonicalExtras s.opcodeAtPc = .instr i ∧ exec i (s.beginCycle rnd) = .next u ∧
      t = { u with dt := BitVec.ofNat 8 (u.dt.toNat - 1) })

/-! ### Control transfer -/

/-- 41_flow.md R131, 10_state.md R30: RET, the word 00EE, pops, resumes two bytes after the popped address, changes nothing else (the slot
is not cleared), and takes StackUnderflow on an empty stack. In a state that has the invariant of R43 the result is at
most 0x1000, from where the next fetch faults. What a CALL pushed is the CALL's own address, so the return from it resumes
after it. -/
def Obligations.RetPopsAndAddsTwo : Prop :=
  encode .ret = 0x00EE ∧ ∀ s : State,
    (s.sp.val = 0 → exec .ret s = .next
      { s with started := true, fault := some ⟨.stackUnderflow, s.pc, some 0x00EE, none⟩ }) ∧
    (∀ j : Fin 16, s.sp.val = j.val + 1 →
      ∃ t, exec .ret s = .next t ∧ t.sp.val = j.val ∧ t.pc.toNat = (s.stack[j.val].toNat + 2) % 2 ^ 16 ∧
        t = { s with sp := t.sp, pc := t.pc } ∧ (Inv s → t.pc.toNat ≤ 0x1000) ∧ (t.pc = 0x1000 → ¬ t.fetchable)) ∧
    (∀ nnn : Addr, s.sp.val < 16 →
      ∃ t u, exec (.call nnn) s = .next t ∧ exec .ret t = .next u ∧ u.pc = s.pc + 2 ∧ u.sp = s.sp ∧
        (∀ j : Fin 16, j.val = s.sp.val → u.stack[j.val] = s.pc))

/-- 41_flow.md R132: JP, the word 1nnn, sets pc to the target and changes nothing else; from a bad target the next cycle
faults; a jump to itself is an idle loop in which dt counts down. -/
def Obligations.JumpSetsPc : Prop :=
  ∀ (nnn : Addr) (s : State), (encode (.jp nnn)).toNat = 0x1000 + nnn.toNat ∧
    (∃ t, exec (.jp nnn) s = .next t ∧ t.pc.toNat = nnn.toNat ∧ t = { s with pc := t.pc } ∧
      ∀ rnd, t.fault = none → ¬ t.fetchable →
        ∃ u r, executeCycle rnd t = .next u ∧ u.fault = some r ∧ r.kind = .addressOutOfBounds) ∧
    (s.fault = none → s.fetchable → decode s.cfg.canonicalExtras s.opcodeAtPc = .instr (.jp nnn) →
      s.pc.toNat = nnn.toNat →
      ∀ rnd, ∃ t, executeCycle rnd s = .next t ∧ t.fault = none ∧ t.fetchable ∧ t.pc = s.pc ∧
        t.opcodeAtPc = s.opcodeAtPc ∧ t.dt.toNat = s.dt.toNat - 1)

/-- 41_flow.md R133: CALL, the word 2nnn, pushes its own address and jumps; with 16 calls nested it takes StackOverflow. A
call to itself pushes one slot a cycle and faults on the 17th cycle. -/
def Obligations.CallPushesItsAddress : Prop :=
  ∀ (nnn : Addr) (s : State), (encode (.call nnn)).toNat = 0x2000 + nnn.toNat ∧
    (s.sp.val = 16 → exec (.call nnn) s = .next
      { s with started := true, fault := some ⟨.stackOverflow, s.pc, some (encode (.call nnn)), none⟩ }) ∧
    (s.sp.val < 16 →
      ∃ t, exec (.call nnn) s = .next t ∧ t.sp.val = s.sp.val + 1 ∧ t.pc.toNat = nnn.toNat ∧
        (∀ j : Fin 16, t.stack[j.val] = if j.val = s.sp.val then s.pc else s.stack[j.val]) ∧
        t = { s with sp := t.sp, pc := t.pc, stack := t.stack }) ∧
    (s.fault = none → s.fetchable → decode s.cfg.canonicalExtras s.opcodeAtPc = .instr (.call nnn) →
      s.pc.toNat = nnn.toNat → s.sp.val = 0 →
      ∀ bytes : List Byte, bytes.length ≤ 16 →
        ∃ t, runCycles bytes s = some t ∧ t.fault = none ∧ t.pc = s.pc ∧ t.sp.val = bytes.length ∧
          (∀ j : Fin 16, j.val < bytes.length → t.stack[j.val] = s.pc) ∧
          (bytes.length = 16 →
            ∀ rnd, ∃ u r, executeCycle rnd t = .next u ∧ u.fault = some r ∧ r.kind = .stackOverflow))

/-- 41_flow.md R134 (an extra, marked general knowledge): JP V0, addr. -/
def Obligations.JumpOffsetIsVZero : Prop :=
  ∀ (nnn : Addr) (s : State),
    ∃ t, exec (.jpV0 nnn) s = .next t ∧ t.pc.toNat = nnn.toNat + (s.v 0).toNat ∧ t = { s with pc := t.pc }

/-! ### Skips -/

/-- 42_skip.md R150 to R154 (marked general knowledge): pc + 4 when the condition holds, pc + 2 otherwise, modulo 2^16,
and nothing but pc changes. -/
def Obligations.RegisterSkips : Prop :=
  ∀ (x y : Reg) (kk : Byte) (s : State),
    (∃ t, exec (.seImm x kk) s = .next t ∧ t = { s with pc := t.pc } ∧
      t.pc.toNat = (s.pc.toNat + if s.v x = kk then 4 else 2) % 2 ^ 16) ∧
    (∃ t, exec (.sneImm x kk) s = .next t ∧ t = { s with pc := t.pc } ∧
      t.pc.toNat = (s.pc.toNat + if s.v x = kk then 2 else 4) % 2 ^ 16) ∧
    (∃ t, exec (.seReg x y) s = .next t ∧ t = { s with pc := t.pc } ∧
      t.pc.toNat = (s.pc.toNat + if s.v x = s.v y then 4 else 2) % 2 ^ 16) ∧
    (∃ t, exec (.sneReg x y) s = .next t ∧ t = { s with pc := t.pc } ∧
      t.pc.toNat = (s.pc.toNat + if s.v x = s.v y then 2 else 4) % 2 ^ 16)

/-- 46_keypad.md R240 to R242 (the spec's decision D25 for the low nibble): the key skips. -/
def Obligations.KeySkips : Prop :=
  ∀ (x : Reg) (s : State) (k : Fin 16), k.val = (s.v x).toNat % 16 →
    (∃ t, exec (.skp x) s = .next t ∧ t = { s with pc := t.pc } ∧
      t.pc.toNat = (s.pc.toNat + if s.key[k.val] = true then 4 else 2) % 2 ^ 16) ∧
    (∃ t, exec (.sknp x) s = .next t ∧ t = { s with pc := t.pc } ∧
      t.pc.toNat = (s.pc.toNat + if s.key[k.val] = true then 2 else 4) % 2 ^ 16)

/-- 46_keypad.md R243 (an extra, the spec's decision D32): LD Vx, K takes the lowest pressed key; while none is pressed
the instruction leaves pc, and everything else, as it is. -/
def Obligations.WaitForKey : Prop :=
  ∀ (x : Reg) (s : State),
    ((∀ k : Fin 16, s.key[k.val] = false) → exec (.ldVxK x) s = .next s) ∧
    (∀ k : Fin 16, s.key[k.val] = true → (∀ j : Fin 16, j < k → s.key[j.val] = false) →
      ∃ t, exec (.ldVxK x) s = .next t ∧ (t.v x).toNat = k.val ∧ (∀ r, r ≠ x → t.v r = s.v r) ∧ t.pc = s.pc + 2 ∧
        t = { s with V := t.V, pc := t.pc })

/-! ### Loads, arithmetic and logic -/

/-- 43_alu.md R171: LD Vx, byte, the word 6xkk. -/
def Obligations.LoadImmediate : Prop :=
  ∀ (x : Reg) (kk : Byte) (s : State), (encode (.ldImm x kk)).toNat = 0x6000 + x.val * 256 + kk.toNat ∧
    ∃ t, exec (.ldImm x kk) s = .next t ∧ t.v x = kk ∧ (∀ r, r ≠ x → t.v r = s.v r) ∧ t.pc = s.pc + 2 ∧
      t = { s with V := t.V, pc := t.pc }

/-- 43_alu.md R170, R172 and R173 (R172 and R173 marked general knowledge): ADD Vx, byte wraps modulo 256 and writes no
flag; LD Vx, Vy copies. -/
def Obligations.AddImmediateAndMove : Prop :=
  ∀ (x y : Reg) (kk : Byte) (s : State),
    (∃ t, exec (.addImm x kk) s = .next t ∧ (t.v x).toNat = ((s.v x).toNat + kk.toNat) % 256 ∧
      (∀ r, r ≠ x → t.v r = s.v r) ∧ t.pc = s.pc + 2 ∧ t = { s with V := t.V, pc := t.pc }) ∧
    (∃ t, exec (.ldReg x y) s = .next t ∧ t.v x = s.v y ∧ (∀ r, r ≠ x → t.v r = s.v r) ∧ t.pc = s.pc + 2 ∧
      t = { s with V := t.V, pc := t.pc })

/-- 43_alu.md R174 to R176, R182 (the spec's decision D14): OR, AND and XOR bit by bit; VF ends as 0 when
LOGIC_RESETS_VF, also when x = F, and is otherwise written only as x. -/
def Obligations.LogicOperations : Prop :=
  ∀ (x y : Reg) (s : State), ∃ t₁ t₂ t₃,
    exec (.orReg x y) s = .next t₁ ∧ exec (.andReg x y) s = .next t₂ ∧ exec (.xorReg x y) s = .next t₃ ∧
    (¬ (s.cfg.logicResetsVF = true ∧ x = VF) → ∀ j < 8,
      (t₁.v x).getLsbD j = ((s.v x).getLsbD j || (s.v y).getLsbD j) ∧
      (t₂.v x).getLsbD j = ((s.v x).getLsbD j && (s.v y).getLsbD j) ∧
      (t₃.v x).getLsbD j = ((s.v x).getLsbD j != (s.v y).getLsbD j)) ∧
    ∀ t ∈ [t₁, t₂, t₃],
      (s.cfg.logicResetsVF = true → t.v VF = 0) ∧ (∀ r, r ≠ x → r ≠ VF → t.v r = s.v r) ∧
      (s.cfg.logicResetsVF = false → x ≠ VF → t.v VF = s.v VF) ∧ t.pc = s.pc + 2 ∧ t = { s with V := t.V, pc := t.pc }

/-- 43_alu.md R177 to R179, R182 (the spec's decisions D15, D16): ADD, SUB and SUBN modulo 256, the operands read first;
VF is the carry or NOT borrow at the end, also when x = F. -/
def Obligations.AddAndSubtract : Prop :=
  ∀ (x y : Reg) (s : State), ∃ t₁ t₂ t₃,
    exec (.addReg x y) s = .next t₁ ∧ exec (.sub x y) s = .next t₂ ∧ exec (.subn x y) s = .next t₃ ∧
    (x ≠ VF →
      (t₁.v x).toNat = ((s.v x).toNat + (s.v y).toNat) % 256 ∧
      (t₂.v x).toNat = ((s.v x).toNat + 256 - (s.v y).toNat) % 256 ∧
      (t₃.v x).toNat = ((s.v y).toNat + 256 - (s.v x).toNat) % 256) ∧
    (t₁.v VF).toNat = (if 255 < (s.v x).toNat + (s.v y).toNat then 1 else 0) ∧
    (t₂.v VF).toNat = (if (s.v y).toNat ≤ (s.v x).toNat then 1 else 0) ∧
    (t₃.v VF).toNat = (if (s.v x).toNat ≤ (s.v y).toNat then 1 else 0) ∧
    ∀ t ∈ [t₁, t₂, t₃], (∀ r, r ≠ x → r ≠ VF → t.v r = s.v r) ∧ t.pc = s.pc + 2 ∧ t = { s with V := t.V, pc := t.pc }

/-- 43_alu.md R180 to R182 (the spec's decisions D16 to D18): SHR and SHL of V[y] when SHIFT_USES_VY and of V[x]
otherwise; VF is the bit shifted out at the end, also when x = F. -/
def Obligations.Shifts : Prop :=
  ∀ (x y : Reg) (s : State) (src : Byte), src = (if s.cfg.shiftUsesVy = true then s.v y else s.v x) →
    ∃ t₁ t₂, exec (.shr x y) s = .next t₁ ∧ exec (.shl x y) s = .next t₂ ∧
      (x ≠ VF → (t₁.v x).toNat = src.toNat / 2 ∧ (t₂.v x).toNat = src.toNat * 2 % 256) ∧
      (t₁.v VF).toNat = src.toNat % 2 ∧ (t₂.v VF).toNat = src.toNat / 128 ∧
      ∀ t ∈ [t₁, t₂], (∀ r, r ≠ x → r ≠ VF → t.v r = s.v r) ∧ t.pc = s.pc + 2 ∧ t = { s with V := t.V, pc := t.pc }

/-! ### Index, random, sound -/

/-- 44_index_random.md R201, 47_fclass.md R263 and R272 (marked general knowledge): what Annn, Fx29 and Fx1E leave in I. -/
def Obligations.IndexWrites : Prop :=
  ∀ (nnn : Addr) (x : Reg) (s : State),
    (∃ t, exec (.ldI nnn) s = .next t ∧ t.I.toNat = nnn.toNat ∧ t = { s with I := t.I, pc := s.pc + 2 }) ∧
    (∃ t, exec (.ldFVx x) s = .next t ∧ t.I.toNat = 5 * ((s.v x).toNat % 16) ∧
      t = { s with I := t.I, pc := s.pc + 2 }) ∧
    (∃ t, exec (.addIVx x) s = .next t ∧ t.I.toNat = (s.I.toNat + (s.v x).toNat) % 2 ^ 16 ∧
      t = { s with I := t.I, pc := s.pc + 2 })

/-- 44_index_random.md R202, 10_state.md R50 (the spec's decision D30): RND is the request's random byte under the mask,
for every byte; and at a step that byte is the free draw (log 4). -/
def Obligations.RandomByteUnderMask : Prop :=
  ∀ (x : Reg) (kk : Byte) (s : State),
    (∃ t, exec (.rnd x kk) s = .next t ∧ t.v x = s.rnd &&& kk ∧ (∀ r, r ≠ x → t.v r = s.v r) ∧ t.pc = s.pc + 2 ∧
      t = { s with V := t.V, pc := t.pc }) ∧
    (s.fault = none → s.fetchable → decode s.cfg.canonicalExtras s.opcodeAtPc = .instr (.rnd x kk) →
      (∀ b, ∃ t, executeCycle b s = .next t ∧ t.v x = b &&& kk) ∧
      ∃ t, step s = .next t ∧ t.v x = Config.freeRnd s.draws &&& kk)

/-- 47_fclass.md R271, 10_state.md R52 (an extra, the spec's decision D34; the port latch is the model's, log 5): LD ST, Vx puts V[x] on the sound_write port
for this cycle, and changes nothing else but pc; a cycle of any other instruction leaves the port idle. -/
def Obligations.SoundWriteStrobe : Prop :=
  (∀ (x : Reg) (s : State),
    ∃ t, exec (.ldStVx x) s = .next t ∧ t.soundWritePort = some (s.v x) ∧
      t = { s with soundWrite := t.soundWrite, pc := s.pc + 2 }) ∧
  (∀ (rnd : Byte) (s t : State), executeCycle rnd s = .next t →
    (∀ x, decode s.cfg.canonicalExtras s.opcodeAtPc ≠ .instr (.ldStVx x)) → t.soundWritePort = none)

/-! ### Block transfers -/

/-- 47_fclass.md R264 (marked general knowledge): LD B, Vx stores the hundreds, tens and units at I, I + 1, I + 2, and no
other byte changes. -/
def Obligations.BcdStoresDigits : Prop :=
  ∀ (x : Reg) (s : State), Memory.wf s.cfg.font s.mem → s.I.toNat + 2 ≤ 0xFFF →
    ∃ t, exec (.ldBVx x) s = .next t ∧
      (t.byteAt s.I.toNat).toNat = (s.v x).toNat / 100 ∧
      (t.byteAt (s.I.toNat + 1)).toNat = (s.v x).toNat / 10 % 10 ∧
      (t.byteAt (s.I.toNat + 2)).toNat = (s.v x).toNat % 10 ∧
      (∀ a, a < s.I.toNat ∨ s.I.toNat + 2 < a → t.byteAt a = s.byteAt a) ∧
      t = { s with mem := t.mem, pc := s.pc + 2 }

/-- 47_fclass.md R265 (the spec's decision D19 for I): LD [I], Vx stores V0 … Vx at I … I + x, and no other byte
changes. -/
def Obligations.DumpStoresRegisters : Prop :=
  ∀ (x : Reg) (s : State), Memory.wf s.cfg.font s.mem → s.I.toNat + x.val ≤ 0xFFF →
    ∃ t, exec (.ldIVx x) s = .next t ∧
      (∀ j : Fin 16, j ≤ x → t.byteAt (s.I.toNat + j.val) = s.v j) ∧
      (∀ a, a < s.I.toNat ∨ s.I.toNat + x.val < a → t.byteAt a = s.byteAt a) ∧
      t.I.toNat = (if s.cfg.loadStoreIncrementsI = true then s.I.toNat + x.val + 1 else s.I.toNat) ∧
      t = { s with mem := t.mem, I := t.I, pc := s.pc + 2 }

/-- 47_fclass.md R266 (the spec's decision D19 for I): LD Vx, [I] loads V0 … Vx from I … I + x, and no other register
changes. -/
def Obligations.LoadFillsRegisters : Prop :=
  ∀ (x : Reg) (s : State), s.I.toNat + x.val ≤ 0xFFF →
    ∃ t, exec (.ldVxI x) s = .next t ∧
      (∀ j : Fin 16, j ≤ x → t.v j = s.byteAt (s.I.toNat + j.val)) ∧ (∀ j : Fin 16, x < j → t.v j = s.v j) ∧
      t.I.toNat = (if s.cfg.loadStoreIncrementsI = true then s.I.toNat + x.val + 1 else s.I.toNat) ∧
      t = { s with V := t.V, I := t.I, pc := s.pc + 2 }

/-- 47_fclass.md R265, R266 (marked general knowledge) and 10_state.md R27: a dump and then a load of as many registers from the same address
restores the registers, whatever was done to them in between. -/
def Obligations.DumpThenLoadRestores : Prop :=
  ∀ (x : Reg) (s t u : State), Memory.wf s.cfg.font s.mem → s.I.toNat + x.val ≤ 0xFFF → exec (.ldIVx x) s = .next t →
    u.mem = t.mem → u.cfg = t.cfg → u.I = s.I →
    ∃ w, exec (.ldVxI x) u = .next w ∧ ∀ j : Fin 16, j ≤ x → w.v j = s.v j

/-- 20_memory.md R76 (marked derived): the words that a register dump stores are fetched as they were stored, already by
the next cycle. -/
def Obligations.StoredWordIsFetched : Prop :=
  ∀ (x j : Reg) (s t : State), Memory.wf s.cfg.font s.mem → s.I.toNat + x.val ≤ 0xFFF → exec (.ldIVx x) s = .next t →
    t.pc.toNat = s.I.toNat + j.val → j < x → ∀ k : Fin 16, k.val = j.val + 1 → t.fetchWord = s.v j ++ s.v k

/-- 20_memory.md R64, R65, 60_exceptions.md R305 (the spec's decisions D6, D8): an instruction one of whose bytes lies
above 0xFFF takes AddressOutOfBounds with the lowest such address, and changes nothing else. -/
def Obligations.OutOfRangeAccessFaults : Prop :=
  ∀ (i : Instr) (s : State), 0 < bytesAccessed i → 0xFFF < s.I.toNat + (bytesAccessed i - 1) →
    exec i s = .next
      { s with
        started := true
        fault := some
          { kind := .addressOutOfBounds, pc := s.pc, opcode := some (encode i)
            addr := some (if 0xFFF < s.I.toNat then s.I.toNat else 0x1000) } }

/-! ### Display -/

/-- 45_display.md R220 (marked general knowledge): CLS darkens all pixels and changes nothing else but pc. -/
def Obligations.ClearScreen : Prop :=
  ∀ s : State, ∃ t, exec .cls s = .next t ∧ (∀ x y, x < 64 → y < 32 → t.disp.pixel x y = false) ∧
    t = { s with disp := t.disp, pc := s.pc + 2 }

/-- 45_display.md R221 to R226 (R221, R222, R225 and R226 marked as the spec's own): DRW XORs the sprite into the
display, its origin wrapped and its pixels clipped, and VF is 1 exactly when a lit pixel is erased. It holds for n = 0,
which accesses nothing and clears VF. -/
def Obligations.DrawXorsSprite : Prop :=
  ∀ (x y : Reg) (n : Rows) (s : State), n = 0 ∨ s.I.toNat + (n.val - 1) ≤ 0xFFF →
    ∃ t, exec (.drw x y n) s = .next t ∧
      (∀ px py, px < 64 → py < 32 → t.disp.pixel px py = (s.disp.pixel px py != s.spriteBit x y n px py)) ∧
      (t.v VF = 0 ∨ t.v VF = 1) ∧
      (t.v VF = 1 ↔ ∃ px py, px < 64 ∧ py < 32 ∧ s.disp.pixel px py = true ∧ t.disp.pixel px py = false) ∧
      (∀ r, r ≠ VF → t.v r = s.v r) ∧ t = { s with V := t.V, disp := t.disp, pc := s.pc + 2 }

/-- 45_display.md R226 (marked derived): drawing the same sprite at the same place twice restores the display. The second
draw sets VF exactly when the sprite has a set bit inside the grid over a pixel that was dark before the first: R226 says
so without the last condition, which R222 and R224 require (log 15). Where the first draw erased nothing, R226 holds as it
is written: the second sets VF exactly when the sprite has a set bit inside the grid. -/
def Obligations.DrawTwiceRestoresDisplay : Prop :=
  ∀ (x y : Reg) (n : Rows) (s t : State), n = 0 ∨ s.I.toNat + (n.val - 1) ≤ 0xFFF → exec (.drw x y n) s = .next t →
    t.v x = s.v x → t.v y = s.v y →
    ∃ u, exec (.drw x y n) t = .next u ∧ u.disp = s.disp ∧
      (u.v VF = 0 ∨ u.v VF = 1) ∧
      (u.v VF = 1 ↔ ∃ px py, px < 64 ∧ py < 32 ∧ s.spriteBit x y n px py = true ∧ s.disp.pixel px py = false) ∧
      (t.v VF = 0 → (u.v VF = 1 ↔ ∃ px py, px < 64 ∧ py < 32 ∧ s.spriteBit x y n px py = true))

/-- 60_exceptions.md R306: register-arithmetic overflow and display clipping never raise. -/
def Obligations.OverflowAndClippingNeverRaise : Prop :=
  ∀ (x y : Reg) (kk : Byte) (n : Rows) (s t : State), s.fault = none →
    exec (.addImm x kk) s = .next t ∨ exec (.addReg x y) s = .next t ∨ exec (.sub x y) s = .next t ∨
      exec (.subn x y) s = .next t ∨ exec (.shr x y) s = .next t ∨ exec (.shl x y) s = .next t ∨
      (exec (.drw x y n) s = .next t ∧ (n = 0 ∨ s.I.toNat + (n.val - 1) ≤ 0xFFF)) →
    t.fault = none

/-! ### Who may change what, over all instructions -/

/-- 10_state.md R20 to R22 (R21 and R22 marked as the spec's own): no instruction writes a general register but those
its rule names; VF is written as a flag only by the instructions R21 lists. -/
def Obligations.GeneralRegisterFrame : Prop :=
  ∀ (i : Instr) (s t : State) (r : Reg), exec i s = .next t → mayWriteReg s.cfg i r = false → t.v r = s.v r

/-- 10_state.md R27 (the spec's decision D8): who writes I. -/
def Obligations.IndexRegisterFrame : Prop :=
  ∀ (i : Instr) (s t : State), exec i s = .next t → mayWriteI s.cfg i = false → t.I = s.I

/-- 10_state.md R28: only CALL writes the call stack, stack[sp] ← pc, and only RET reads it, stack[sp − 1]: a different
stack makes no other difference to any other instruction. -/
def Obligations.StackWrittenByCallReadByRet : Prop :=
  (∀ (i : Instr) (s t : State), (∀ nnn, i ≠ .call nnn) → exec i s = .next t → t.stack = s.stack) ∧
  (∀ (nnn : Addr) (s t : State) (j : Fin 16), s.sp.val < 16 → exec (.call nnn) s = .next t →
    t.stack[j.val] = if j.val = s.sp.val then s.pc else s.stack[j.val]) ∧
  (∀ (i : Instr) (s t : State) (other : Vector Word 16), i ≠ .ret → exec i s = .next t →
    ∃ u, exec i { s with stack := other } = .next u ∧ { u with stack := t.stack } = t) ∧
  (∀ (s t u : State) (other : Vector Word 16), (∀ j : Fin 16, j.val + 1 = s.sp.val → other[j.val] = s.stack[j.val]) →
    exec .ret s = .next t → exec .ret { s with stack := other } = .next u → u = { t with stack := other })

/-- 10_state.md R29: sp counts 0 … 16, a push at 16 raises StackOverflow and a pop at 0 raises StackUnderflow, and no
instruction but CALL and RET writes sp or reads it. -/
def Obligations.StackPointerDiscipline : Prop :=
  (∀ (i : Instr) (s t : State), exec i s = .next t →
    s.sp.val ≤ 16 ∧ t.sp.val ≤ 16 ∧
    ((∀ nnn, i ≠ .call nnn) → i ≠ .ret → t.sp = s.sp) ∧
    (∀ nnn, i = .call nnn →
      (s.sp.val < 16 → t.sp.val = s.sp.val + 1 ∧ t.fault = s.fault) ∧
      (s.sp.val = 16 → t.sp = s.sp ∧ ∃ r, t.fault = some r ∧ r.kind = .stackOverflow)) ∧
    (i = .ret →
      (0 < s.sp.val → t.sp.val + 1 = s.sp.val ∧ t.fault = s.fault) ∧
      (s.sp.val = 0 → t.sp = s.sp ∧ ∃ r, t.fault = some r ∧ r.kind = .stackUnderflow))) ∧
  (∀ (i : Instr) (s t : State) (n : Fin 17), (∀ nnn, i ≠ .call nnn) → i ≠ .ret → exec i s = .next t →
    exec i { s with sp := n } = .next { t with sp := n })

/-- 60_exceptions.md R303, R304: StackOverflow is raised by CALL with sp = 16 and by nothing else, StackUnderflow by RET
with sp = 0 and by nothing else: no other instruction, no fetch and no decode. -/
def Obligations.StackFaultsHaveOneCause : Prop :=
  (∀ (i : Instr) (s t : State), s.fault = none → exec i s = .next t →
    ((∃ r, t.fault = some r ∧ r.kind = .stackOverflow) ↔ (∃ nnn, i = .call nnn) ∧ s.sp.val = 16) ∧
    ((∃ r, t.fault = some r ∧ r.kind = .stackUnderflow) ↔ i = .ret ∧ s.sp.val = 0)) ∧
  (∀ (rnd : Byte) (s t : State) (r : FaultRecord), s.fault = none → executeCycle rnd s = .next t → t.fault = some r →
    (r.kind = .stackOverflow ↔
      s.fetchable ∧ (∃ nnn, decode s.cfg.canonicalExtras s.opcodeAtPc = .instr (.call nnn)) ∧ s.sp.val = 16) ∧
    (r.kind = .stackUnderflow ↔
      s.fetchable ∧ decode s.cfg.canonicalExtras s.opcodeAtPc = .instr .ret ∧ s.sp.val = 0))

/-- 60_exceptions.md R302, R305, R308 (the spec's decision D6): executing an instruction faults only for the stack or for
an access above 0xFFF, with its own word in the record; UnimplementedInstruction is never raised by an instruction. -/
def Obligations.ExecuteFaultCauses : Prop :=
  ∀ (i : Instr) (s t : State), s.fault = none → exec i s = .next t →
    (t.fault = none ↔
      ¬ (((∃ nnn, i = .call nnn) ∧ s.sp.val = 16) ∨ (i = .ret ∧ s.sp.val = 0) ∨
        (0 < bytesAccessed i ∧ 0xFFF < s.I.toNat + (bytesAccessed i - 1)))) ∧
    ∀ r, t.fault = some r → r.kind ≠ .unimplementedInstruction ∧ r.opcode = some (encode i) ∧ r.pc = s.pc

/-- 20_memory.md R67, R68, R72 (R67 marked derived): an instruction changes no byte but those it stores, I … I + n − 1;
one that stores nothing changes none, in any state. -/
def Obligations.MemoryFrame : Prop :=
  ∀ (i : Instr) (s t : State), exec i s = .next t →
    (bytesStored i = 0 → t.mem = s.mem ∧ ∀ a, t.byteAt a = s.byteAt a) ∧
    (Memory.wf s.cfg.font s.mem → ∀ a, a < s.I.toNat ∨ s.I.toNat + bytesStored i ≤ a → t.byteAt a = s.byteAt a)

/-- 20_memory.md R72: only load_program, before the first cycle, and cycles of the instructions that store (R67: LD B and
LD [I]) change memory. -/
def Obligations.MemoryChangedOnlyByStoresAndLoad : Prop :=
  (∀ (rnd : Byte) (s t : State), executeCycle rnd s = .next t → t.mem ≠ s.mem →
    s.fetchable ∧ ∃ x, decode s.cfg.canonicalExtras s.opcodeAtPc = .instr (.ldBVx x) ∨
      decode s.cfg.canonicalExtras s.opcodeAtPc = .instr (.ldIVx x)) ∧
  (∀ (s : State) (b : List Byte), (s.loadProgram b).2.mem ≠ s.mem → s.started = false) ∧
  (∀ (s : State) (k : Vector Bool 16), (s.setKeys k).mem = s.mem)

/-- 20_memory.md R68: a read returns the stored byte, and a write changes only the byte addressed. -/
def Obligations.MemoryReadAfterWrite : Prop :=
  ∀ (s : State) (a : Nat) (v : Byte), Memory.wf s.cfg.font s.mem → a ≤ 0xFFF →
    (s.putByte a v).byteAt a = v ∧ ∀ b, b ≠ a → (s.putByte a v).byteAt b = s.byteAt b

/-- 10_state.md R38, R51: the display buffer is a 64 × 32 grid of one-bit pixels, only CLS and DRW write it, and the
display port presents it row-major, index = x + 64·y, a pixel as a byte 0 or 1. -/
def Obligations.DisplayWrittenByClsAndDrw : Prop :=
  (∀ (i : Instr) (s t : State), i ≠ .cls → (∀ x y n, i ≠ .drw x y n) → exec i s = .next t → t.disp = s.disp) ∧
  (∀ (s : State) (x y : Nat), x < 64 → y < 32 →
    s.displayPort.length = 2048 ∧ s.displayPort[x + y * 64]? = some (if s.disp.pixel x y then 1 else 0))

/-- 10_state.md R39: the input state is never written by the engine, only by the host, and only SKP, SKNP and LD Vx, K
read it: other keys make no other difference to any other instruction. -/
def Obligations.KeysOnlyReadByKeypadInstructions : Prop :=
  (∀ (i : Instr) (s t : State), exec i s = .next t → t.key = s.key) ∧
  (∀ (rnd : Byte) (s t : State), executeCycle rnd s = .next t → t.key = s.key) ∧
  (∀ (s : State) (k : Vector Bool 16), (s.setKeys k).key = k) ∧
  (∀ (i : Instr) (s t : State) (k : Vector Bool 16), readsKey i = false → exec i s = .next t →
    exec i { s with key := k } = .next { t with key := k })

/-- 10_state.md R33, R35 to R37, R50, R52 (marked as the spec's own decisions) and the model's own fields (log 1, log 4,
log 5): no instruction writes loaded, the random input, the draw counter or the parameters; the fault record and started
change only by taking a fault; only LD ST writes the sound_write latch; and the random input matters to RND alone. -/
def Obligations.StatusAndPortFrame : Prop :=
  (∀ (i : Instr) (s t : State), exec i s = .next t →
    t.loaded = s.loaded ∧ t.rnd = s.rnd ∧ t.draws = s.draws ∧ t.cfg = s.cfg ∧
    (t.fault = s.fault ∧ t.started = s.started ∨
      ∃ r, t.fault = some r ∧ t.started = true ∧ { t with fault := s.fault, started := s.started } = s) ∧
    ((∀ x, i ≠ .ldStVx x) → t.soundWrite = s.soundWrite)) ∧
  (∀ (i : Instr) (s t : State) (b : Byte), (∀ x kk, i ≠ .rnd x kk) → exec i s = .next t →
    exec i { s with rnd := b } = .next { t with rnd := b })

/-! ### Ports -/

/-- 20_memory.md R70, R71, 10_state.md R47 (the spec's decision D28): load_program. -/
def Obligations.LoadProgramPort : Prop :=
  ∀ (s : State) (b : List Byte),
    (s.started = true ∨ s.loaded = true → s.loadProgram b = (.loadRefused, s)) ∧
    (s.started = false → s.loaded = false → 3584 < b.length → s.loadProgram b = (.romTooLarge, s)) ∧
    (s.started = false → s.loaded = false → b.length ≤ 3584 → Memory.wf s.cfg.font s.mem →
      ∃ t, s.loadProgram b = (.ok, t) ∧ (∀ j (h : j < b.length), t.byteAt (0x200 + j) = b[j]) ∧
        (∀ a, a < 0x200 ∨ 0x200 + b.length ≤ a → t.byteAt a = s.byteAt a) ∧ Memory.wf t.cfg.font t.mem ∧
        t = { s with mem := t.mem, loaded := true })

/-- 10_state.md R46, R42 and R48 (R46 the spec's decision D27; log 16 for the model's own fields): the reset port gives
every piece of state its reset value except key; set_keys replaces key and nothing else. -/
def Obligations.ResetAndKeyPorts : Prop :=
  ∀ (s : State) (k : Vector Bool 16),
    (∀ r, s.portReset.v r = 0) ∧ s.portReset.pc = 0x200 ∧ s.portReset.I = 0 ∧ s.portReset.sp = 0 ∧
    (∀ j : Fin 16, s.portReset.stack[j.val] = 0) ∧ s.portReset.dt = 0 ∧
    (∀ a : Fin 80, s.portReset.byteAt a.val = s.cfg.font[a.val]) ∧ (∀ a, 80 ≤ a → s.portReset.byteAt a = 0) ∧
    (∀ x y, x < 64 → y < 32 → s.portReset.disp.pixel x y = false) ∧ s.portReset.key = s.key ∧
    s.portReset.statusPort = (none, false) ∧ s.portReset.started = false ∧ s.portReset.loaded = false ∧
    s.portReset.soundWritePort = none ∧ s.portReset.cfg = s.cfg ∧ s.portReset.draws = s.draws ∧
    (∀ j : Fin 16, (s.setKeys k).key[j.val] = k[j.val]) ∧ s.setKeys k = { s with key := (s.setKeys k).key }

/-! ### Invariants -/

/-- The invariant of 10_state.md R43 holds after reset, for every parameter record. -/
def Obligations.InvariantAtReset : Prop :=
  Inv State.reset ∧ ∀ cfg : Config, Inv (State.initial cfg)

/-- 10_state.md R43 (marked derived), R33; 40_cycle.md R120: every step keeps the invariant, from every state that has
it. -/
def Obligations.StepKeepsInvariant : Prop :=
  ∀ s t : State, Inv s → step s = .next t → Inv t

/-- 10_state.md R43 (marked derived): the invariant holds in every state a host can bring the block to, whatever the
program, the keys and the random bytes, and the parameters never change. -/
def Obligations.ReachableStatesSatisfyInvariant : Prop :=
  ∀ (cfg : Config) (s : State), Reachable cfg s → Inv s ∧ s.cfg = cfg
end

