-- ==== Sys2Proof/Laws/Decode.lean ====
section
/-! SUPPORT. The fields of packed words (30_encoding.md R91, R92) and the decoder's cases. -/

namespace Sys2Proof

/-! ### A packed word has the fields it was packed from -/

@[simp] theorem classOf_packAddr (c : BitVec 4) (nnn : Addr) : classOf (packAddr c nnn) = c.toNat := by
  have hc := c.isLt
  have hn := nnn.isLt
  simp only [classOf, packAddr, BitVec.extractLsb'_toNat, BitVec.toNat_append, Nat.shiftRight_eq_div_pow]
  rw [← Nat.shiftLeft_add_eq_or_of_lt hn, Nat.shiftLeft_eq]
  omega

@[simp] theorem fieldNNN_packAddr (c : BitVec 4) (nnn : Addr) : fieldNNN (packAddr c nnn) = nnn := by
  have hn := nnn.isLt
  apply BitVec.eq_of_toNat_eq
  simp only [fieldNNN, packAddr, BitVec.extractLsb'_toNat, BitVec.toNat_append, Nat.shiftRight_eq_div_pow]
  rw [← Nat.shiftLeft_add_eq_or_of_lt hn, Nat.shiftLeft_eq]
  omega

/-- A word in format XKK as a number. -/
theorem packXKK_toNat (c : BitVec 4) (x : Reg) (kk : Byte) :
    (packXKK c x kk).toNat = c.toNat * 4096 + x.val * 256 + kk.toNat := by
  have hx : (BitVec.ofFin (w := 4) x).toNat < 2 ^ 4 := (BitVec.ofFin (w := 4) x).isLt
  have hx' : (BitVec.ofFin (w := 4) x).toNat = x.val := rfl
  have hk := kk.isLt
  simp only [packXKK, BitVec.toNat_append]
  rw [← Nat.shiftLeft_add_eq_or_of_lt hk, ← Nat.shiftLeft_add_eq_or_of_lt hx, Nat.shiftLeft_eq, Nat.shiftLeft_eq]
  omega

/-- A word in format XYN as a number. -/
theorem packXYN_toNat (c : BitVec 4) (x y : Reg) (n : Rows) :
    (packXYN c x y n).toNat = c.toNat * 4096 + x.val * 256 + y.val * 16 + n.val := by
  have hx : (BitVec.ofFin (w := 4) x).toNat < 2 ^ 4 := (BitVec.ofFin (w := 4) x).isLt
  have hy : (BitVec.ofFin (w := 4) y).toNat < 2 ^ 4 := (BitVec.ofFin (w := 4) y).isLt
  have hn : (BitVec.ofFin (w := 4) n).toNat < 2 ^ 4 := (BitVec.ofFin (w := 4) n).isLt
  have hx' : (BitVec.ofFin (w := 4) x).toNat = x.val := rfl
  have hy' : (BitVec.ofFin (w := 4) y).toNat = y.val := rfl
  have hn' : (BitVec.ofFin (w := 4) n).toNat = n.val := rfl
  simp only [packXYN, BitVec.toNat_append]
  rw [← Nat.shiftLeft_add_eq_or_of_lt hn, ← Nat.shiftLeft_add_eq_or_of_lt hy, ← Nat.shiftLeft_add_eq_or_of_lt hx,
    Nat.shiftLeft_eq, Nat.shiftLeft_eq, Nat.shiftLeft_eq]
  omega

/-! ### The fields of a word as arithmetic on its number -/

theorem classOf_eq (op : Word) : classOf op = op.toNat / 4096 := by
  have h := op.isLt
  simp only [classOf, BitVec.extractLsb'_toNat, Nat.shiftRight_eq_div_pow]
  omega

theorem fieldX_val (op : Word) : (fieldX op).val = op.toNat / 256 % 16 := by
  simp only [fieldX, BitVec.val_toFin, BitVec.extractLsb'_toNat, Nat.shiftRight_eq_div_pow]

theorem fieldY_val (op : Word) : (fieldY op).val = op.toNat / 16 % 16 := by
  simp only [fieldY, BitVec.val_toFin, BitVec.extractLsb'_toNat, Nat.shiftRight_eq_div_pow]

theorem fieldN_val (op : Word) : (fieldN op).val = op.toNat % 16 := by
  simp [fieldN]

theorem fieldKK_toNat (op : Word) : (fieldKK op).toNat = op.toNat % 256 := by
  simp only [fieldKK, BitVec.extractLsb'_toNat, Nat.shiftRight_eq_div_pow]
  omega

theorem fieldNNN_toNat (op : Word) : (fieldNNN op).toNat = op.toNat % 4096 := by
  simp only [fieldNNN, BitVec.extractLsb'_toNat, Nat.shiftRight_eq_div_pow]
  omega

@[simp] theorem classOf_packXKK (c : BitVec 4) (x : Reg) (kk : Byte) : classOf (packXKK c x kk) = c.toNat := by
  have := x.isLt; have := kk.isLt
  rw [classOf_eq, packXKK_toNat]; omega

@[simp] theorem fieldX_packXKK (c : BitVec 4) (x : Reg) (kk : Byte) : fieldX (packXKK c x kk) = x := by
  have := x.isLt; have := kk.isLt
  apply Fin.ext; rw [fieldX_val, packXKK_toNat]; omega

@[simp] theorem fieldKK_packXKK (c : BitVec 4) (x : Reg) (kk : Byte) : fieldKK (packXKK c x kk) = kk := by
  have := kk.isLt
  apply BitVec.eq_of_toNat_eq; rw [fieldKK_toNat, packXKK_toNat]; omega

@[simp] theorem classOf_packXYN (c : BitVec 4) (x y : Reg) (n : Rows) : classOf (packXYN c x y n) = c.toNat := by
  have := x.isLt; have := y.isLt; have := n.isLt
  rw [classOf_eq, packXYN_toNat]; omega

@[simp] theorem fieldX_packXYN (c : BitVec 4) (x y : Reg) (n : Rows) : fieldX (packXYN c x y n) = x := by
  have := x.isLt; have := y.isLt; have := n.isLt
  apply Fin.ext; rw [fieldX_val, packXYN_toNat]; omega

@[simp] theorem fieldY_packXYN (c : BitVec 4) (x y : Reg) (n : Rows) : fieldY (packXYN c x y n) = y := by
  have := y.isLt; have := n.isLt
  apply Fin.ext; rw [fieldY_val, packXYN_toNat]; omega

@[simp] theorem fieldN_packXYN (c : BitVec 4) (x y : Reg) (n : Rows) : fieldN (packXYN c x y n) = n := by
  have := n.isLt
  apply Fin.ext; rw [fieldN_val, packXYN_toNat]; omega

/-! ### A word is packed from its fields -/

theorem packAddr_fields (op : Word) (c : BitVec 4) (h : classOf op = c.toNat) : packAddr c (fieldNNN op) = op := by
  apply BitVec.eq_of_toNat_eq
  rw [classOf_eq] at h
  have hn := (fieldNNN op).isLt
  simp only [packAddr, BitVec.toNat_append]
  rw [← Nat.shiftLeft_add_eq_or_of_lt hn, Nat.shiftLeft_eq, fieldNNN_toNat]
  omega

theorem packXKK_fields (op : Word) (c : BitVec 4) (h : classOf op = c.toNat) :
    packXKK c (fieldX op) (fieldKK op) = op := by
  apply BitVec.eq_of_toNat_eq
  rw [classOf_eq] at h
  rw [packXKK_toNat, fieldX_val, fieldKK_toNat]
  omega

theorem packXYN_fields (op : Word) (c : BitVec 4) (h : classOf op = c.toNat) :
    packXYN c (fieldX op) (fieldY op) (fieldN op) = op := by
  apply BitVec.eq_of_toNat_eq
  rw [classOf_eq] at h
  rw [packXYN_toNat, fieldX_val, fieldY_val, fieldN_val]
  omega

theorem classOf_lt (op : Word) : classOf op < 16 := by
  have := op.isLt
  rw [classOf_eq]; omega

/-- An extra decodes exactly when the extras are admitted. -/
@[simp] theorem Decoded.extra_eq_instr (ext : Bool) (op : Word) (i j : Instr) :
    Decoded.extra ext op i = .instr j ↔ ext = true ∧ i = j := by
  cases ext <;> simp [Decoded.extra]

end Sys2Proof
end

