-- ==== Sys2Proof/Laws/State.lean ====
section
/-! SUPPORT. The fields of a state after each named update: one lemma a field and an update, all of them simp lemmas. -/

namespace Sys2Proof.Machine

/-! ### setV: V[r] ← b -/

@[simp] theorem State.setV_pc (s : State) (r : Reg) (b : Byte) : (s.setV r b).pc = s.pc := rfl
@[simp] theorem State.setV_I (s : State) (r : Reg) (b : Byte) : (s.setV r b).I = s.I := rfl
@[simp] theorem State.setV_sp (s : State) (r : Reg) (b : Byte) : (s.setV r b).sp = s.sp := rfl
@[simp] theorem State.setV_stack (s : State) (r : Reg) (b : Byte) : (s.setV r b).stack = s.stack := rfl
@[simp] theorem State.setV_dt (s : State) (r : Reg) (b : Byte) : (s.setV r b).dt = s.dt := rfl
@[simp] theorem State.setV_mem (s : State) (r : Reg) (b : Byte) : (s.setV r b).mem = s.mem := rfl
@[simp] theorem State.setV_disp (s : State) (r : Reg) (b : Byte) : (s.setV r b).disp = s.disp := rfl
@[simp] theorem State.setV_key (s : State) (r : Reg) (b : Byte) : (s.setV r b).key = s.key := rfl
@[simp] theorem State.setV_fault (s : State) (r : Reg) (b : Byte) : (s.setV r b).fault = s.fault := rfl
@[simp] theorem State.setV_started (s : State) (r : Reg) (b : Byte) : (s.setV r b).started = s.started := rfl
@[simp] theorem State.setV_loaded (s : State) (r : Reg) (b : Byte) : (s.setV r b).loaded = s.loaded := rfl
@[simp] theorem State.setV_soundWrite (s : State) (r : Reg) (b : Byte) : (s.setV r b).soundWrite = s.soundWrite := rfl
@[simp] theorem State.setV_rnd (s : State) (r : Reg) (b : Byte) : (s.setV r b).rnd = s.rnd := rfl
@[simp] theorem State.setV_draws (s : State) (r : Reg) (b : Byte) : (s.setV r b).draws = s.draws := rfl
@[simp] theorem State.setV_cfg (s : State) (r : Reg) (b : Byte) : (s.setV r b).cfg = s.cfg := rfl
@[simp] theorem State.setV_byteAt (s : State) (r : Reg) (b : Byte) (m : Nat) : (s.setV r b).byteAt m = s.byteAt m := rfl

/-! ### loadRegs: V[0] … V[x] ← bytes -/

@[simp] theorem State.loadRegs_pc (s : State) (x : Reg) (base : Nat) : (s.loadRegs x base).pc = s.pc := rfl
@[simp] theorem State.loadRegs_I (s : State) (x : Reg) (base : Nat) : (s.loadRegs x base).I = s.I := rfl
@[simp] theorem State.loadRegs_sp (s : State) (x : Reg) (base : Nat) : (s.loadRegs x base).sp = s.sp := rfl
@[simp] theorem State.loadRegs_stack (s : State) (x : Reg) (base : Nat) : (s.loadRegs x base).stack = s.stack := rfl
@[simp] theorem State.loadRegs_dt (s : State) (x : Reg) (base : Nat) : (s.loadRegs x base).dt = s.dt := rfl
@[simp] theorem State.loadRegs_mem (s : State) (x : Reg) (base : Nat) : (s.loadRegs x base).mem = s.mem := rfl
@[simp] theorem State.loadRegs_disp (s : State) (x : Reg) (base : Nat) : (s.loadRegs x base).disp = s.disp := rfl
@[simp] theorem State.loadRegs_key (s : State) (x : Reg) (base : Nat) : (s.loadRegs x base).key = s.key := rfl
@[simp] theorem State.loadRegs_fault (s : State) (x : Reg) (base : Nat) : (s.loadRegs x base).fault = s.fault := rfl
@[simp] theorem State.loadRegs_started (s : State) (x : Reg) (base : Nat) : (s.loadRegs x base).started = s.started := rfl
@[simp] theorem State.loadRegs_loaded (s : State) (x : Reg) (base : Nat) : (s.loadRegs x base).loaded = s.loaded := rfl
@[simp] theorem State.loadRegs_soundWrite (s : State) (x : Reg) (base : Nat) : (s.loadRegs x base).soundWrite = s.soundWrite := rfl
@[simp] theorem State.loadRegs_rnd (s : State) (x : Reg) (base : Nat) : (s.loadRegs x base).rnd = s.rnd := rfl
@[simp] theorem State.loadRegs_draws (s : State) (x : Reg) (base : Nat) : (s.loadRegs x base).draws = s.draws := rfl
@[simp] theorem State.loadRegs_cfg (s : State) (x : Reg) (base : Nat) : (s.loadRegs x base).cfg = s.cfg := rfl
@[simp] theorem State.loadRegs_byteAt (s : State) (x : Reg) (base : Nat) (m : Nat) : (s.loadRegs x base).byteAt m = s.byteAt m := rfl

/-! ### advance: pc+2 -/

@[simp] theorem State.advance_V (s : State) : s.advance.V = s.V := rfl
@[simp] theorem State.advance_pc (s : State) : s.advance.pc = s.pc + 2 := rfl
@[simp] theorem State.advance_I (s : State) : s.advance.I = s.I := rfl
@[simp] theorem State.advance_sp (s : State) : s.advance.sp = s.sp := rfl
@[simp] theorem State.advance_stack (s : State) : s.advance.stack = s.stack := rfl
@[simp] theorem State.advance_dt (s : State) : s.advance.dt = s.dt := rfl
@[simp] theorem State.advance_mem (s : State) : s.advance.mem = s.mem := rfl
@[simp] theorem State.advance_disp (s : State) : s.advance.disp = s.disp := rfl
@[simp] theorem State.advance_key (s : State) : s.advance.key = s.key := rfl
@[simp] theorem State.advance_fault (s : State) : s.advance.fault = s.fault := rfl
@[simp] theorem State.advance_started (s : State) : s.advance.started = s.started := rfl
@[simp] theorem State.advance_loaded (s : State) : s.advance.loaded = s.loaded := rfl
@[simp] theorem State.advance_soundWrite (s : State) : s.advance.soundWrite = s.soundWrite := rfl
@[simp] theorem State.advance_rnd (s : State) : s.advance.rnd = s.rnd := rfl
@[simp] theorem State.advance_draws (s : State) : s.advance.draws = s.draws := rfl
@[simp] theorem State.advance_cfg (s : State) : s.advance.cfg = s.cfg := rfl
@[simp] theorem State.advance_v (s : State) (q : Reg) : s.advance.v q = s.v q := rfl
@[simp] theorem State.advance_byteAt (s : State) (m : Nat) : s.advance.byteAt m = s.byteAt m := rfl

/-! ### skipIf: a skip -/

@[simp] theorem State.skipIf_V (s : State) (c : Bool) : (s.skipIf c).V = s.V := rfl
@[simp] theorem State.skipIf_pc (s : State) (c : Bool) : (s.skipIf c).pc = if c then s.pc + 4 else s.pc + 2 := rfl
@[simp] theorem State.skipIf_I (s : State) (c : Bool) : (s.skipIf c).I = s.I := rfl
@[simp] theorem State.skipIf_sp (s : State) (c : Bool) : (s.skipIf c).sp = s.sp := rfl
@[simp] theorem State.skipIf_stack (s : State) (c : Bool) : (s.skipIf c).stack = s.stack := rfl
@[simp] theorem State.skipIf_dt (s : State) (c : Bool) : (s.skipIf c).dt = s.dt := rfl
@[simp] theorem State.skipIf_mem (s : State) (c : Bool) : (s.skipIf c).mem = s.mem := rfl
@[simp] theorem State.skipIf_disp (s : State) (c : Bool) : (s.skipIf c).disp = s.disp := rfl
@[simp] theorem State.skipIf_key (s : State) (c : Bool) : (s.skipIf c).key = s.key := rfl
@[simp] theorem State.skipIf_fault (s : State) (c : Bool) : (s.skipIf c).fault = s.fault := rfl
@[simp] theorem State.skipIf_started (s : State) (c : Bool) : (s.skipIf c).started = s.started := rfl
@[simp] theorem State.skipIf_loaded (s : State) (c : Bool) : (s.skipIf c).loaded = s.loaded := rfl
@[simp] theorem State.skipIf_soundWrite (s : State) (c : Bool) : (s.skipIf c).soundWrite = s.soundWrite := rfl
@[simp] theorem State.skipIf_rnd (s : State) (c : Bool) : (s.skipIf c).rnd = s.rnd := rfl
@[simp] theorem State.skipIf_draws (s : State) (c : Bool) : (s.skipIf c).draws = s.draws := rfl
@[simp] theorem State.skipIf_cfg (s : State) (c : Bool) : (s.skipIf c).cfg = s.cfg := rfl
@[simp] theorem State.skipIf_v (s : State) (c : Bool) (q : Reg) : (s.skipIf c).v q = s.v q := rfl
@[simp] theorem State.skipIf_byteAt (s : State) (c : Bool) (m : Nat) : (s.skipIf c).byteAt m = s.byteAt m := rfl

/-! ### jumpTo: pc ← w -/

@[simp] theorem State.jumpTo_V (s : State) (w : Word) : (s.jumpTo w).V = s.V := rfl
@[simp] theorem State.jumpTo_pc (s : State) (w : Word) : (s.jumpTo w).pc = w := rfl
@[simp] theorem State.jumpTo_I (s : State) (w : Word) : (s.jumpTo w).I = s.I := rfl
@[simp] theorem State.jumpTo_sp (s : State) (w : Word) : (s.jumpTo w).sp = s.sp := rfl
@[simp] theorem State.jumpTo_stack (s : State) (w : Word) : (s.jumpTo w).stack = s.stack := rfl
@[simp] theorem State.jumpTo_dt (s : State) (w : Word) : (s.jumpTo w).dt = s.dt := rfl
@[simp] theorem State.jumpTo_mem (s : State) (w : Word) : (s.jumpTo w).mem = s.mem := rfl
@[simp] theorem State.jumpTo_disp (s : State) (w : Word) : (s.jumpTo w).disp = s.disp := rfl
@[simp] theorem State.jumpTo_key (s : State) (w : Word) : (s.jumpTo w).key = s.key := rfl
@[simp] theorem State.jumpTo_fault (s : State) (w : Word) : (s.jumpTo w).fault = s.fault := rfl
@[simp] theorem State.jumpTo_started (s : State) (w : Word) : (s.jumpTo w).started = s.started := rfl
@[simp] theorem State.jumpTo_loaded (s : State) (w : Word) : (s.jumpTo w).loaded = s.loaded := rfl
@[simp] theorem State.jumpTo_soundWrite (s : State) (w : Word) : (s.jumpTo w).soundWrite = s.soundWrite := rfl
@[simp] theorem State.jumpTo_rnd (s : State) (w : Word) : (s.jumpTo w).rnd = s.rnd := rfl
@[simp] theorem State.jumpTo_draws (s : State) (w : Word) : (s.jumpTo w).draws = s.draws := rfl
@[simp] theorem State.jumpTo_cfg (s : State) (w : Word) : (s.jumpTo w).cfg = s.cfg := rfl
@[simp] theorem State.jumpTo_v (s : State) (w : Word) (q : Reg) : (s.jumpTo w).v q = s.v q := rfl
@[simp] theorem State.jumpTo_byteAt (s : State) (w : Word) (m : Nat) : (s.jumpTo w).byteAt m = s.byteAt m := rfl

/-! ### setI: I ← w -/

@[simp] theorem State.setI_V (s : State) (w : Word) : (s.setI w).V = s.V := rfl
@[simp] theorem State.setI_pc (s : State) (w : Word) : (s.setI w).pc = s.pc := rfl
@[simp] theorem State.setI_I (s : State) (w : Word) : (s.setI w).I = w := rfl
@[simp] theorem State.setI_sp (s : State) (w : Word) : (s.setI w).sp = s.sp := rfl
@[simp] theorem State.setI_stack (s : State) (w : Word) : (s.setI w).stack = s.stack := rfl
@[simp] theorem State.setI_dt (s : State) (w : Word) : (s.setI w).dt = s.dt := rfl
@[simp] theorem State.setI_mem (s : State) (w : Word) : (s.setI w).mem = s.mem := rfl
@[simp] theorem State.setI_disp (s : State) (w : Word) : (s.setI w).disp = s.disp := rfl
@[simp] theorem State.setI_key (s : State) (w : Word) : (s.setI w).key = s.key := rfl
@[simp] theorem State.setI_fault (s : State) (w : Word) : (s.setI w).fault = s.fault := rfl
@[simp] theorem State.setI_started (s : State) (w : Word) : (s.setI w).started = s.started := rfl
@[simp] theorem State.setI_loaded (s : State) (w : Word) : (s.setI w).loaded = s.loaded := rfl
@[simp] theorem State.setI_soundWrite (s : State) (w : Word) : (s.setI w).soundWrite = s.soundWrite := rfl
@[simp] theorem State.setI_rnd (s : State) (w : Word) : (s.setI w).rnd = s.rnd := rfl
@[simp] theorem State.setI_draws (s : State) (w : Word) : (s.setI w).draws = s.draws := rfl
@[simp] theorem State.setI_cfg (s : State) (w : Word) : (s.setI w).cfg = s.cfg := rfl
@[simp] theorem State.setI_v (s : State) (w : Word) (q : Reg) : (s.setI w).v q = s.v q := rfl
@[simp] theorem State.setI_byteAt (s : State) (w : Word) (m : Nat) : (s.setI w).byteAt m = s.byteAt m := rfl

/-! ### setDt: dt ← b -/

@[simp] theorem State.setDt_V (s : State) (b : Byte) : (s.setDt b).V = s.V := rfl
@[simp] theorem State.setDt_pc (s : State) (b : Byte) : (s.setDt b).pc = s.pc := rfl
@[simp] theorem State.setDt_I (s : State) (b : Byte) : (s.setDt b).I = s.I := rfl
@[simp] theorem State.setDt_sp (s : State) (b : Byte) : (s.setDt b).sp = s.sp := rfl
@[simp] theorem State.setDt_stack (s : State) (b : Byte) : (s.setDt b).stack = s.stack := rfl
@[simp] theorem State.setDt_dt (s : State) (b : Byte) : (s.setDt b).dt = b := rfl
@[simp] theorem State.setDt_mem (s : State) (b : Byte) : (s.setDt b).mem = s.mem := rfl
@[simp] theorem State.setDt_disp (s : State) (b : Byte) : (s.setDt b).disp = s.disp := rfl
@[simp] theorem State.setDt_key (s : State) (b : Byte) : (s.setDt b).key = s.key := rfl
@[simp] theorem State.setDt_fault (s : State) (b : Byte) : (s.setDt b).fault = s.fault := rfl
@[simp] theorem State.setDt_started (s : State) (b : Byte) : (s.setDt b).started = s.started := rfl
@[simp] theorem State.setDt_loaded (s : State) (b : Byte) : (s.setDt b).loaded = s.loaded := rfl
@[simp] theorem State.setDt_soundWrite (s : State) (b : Byte) : (s.setDt b).soundWrite = s.soundWrite := rfl
@[simp] theorem State.setDt_rnd (s : State) (b : Byte) : (s.setDt b).rnd = s.rnd := rfl
@[simp] theorem State.setDt_draws (s : State) (b : Byte) : (s.setDt b).draws = s.draws := rfl
@[simp] theorem State.setDt_cfg (s : State) (b : Byte) : (s.setDt b).cfg = s.cfg := rfl
@[simp] theorem State.setDt_v (s : State) (b : Byte) (q : Reg) : (s.setDt b).v q = s.v q := rfl
@[simp] theorem State.setDt_byteAt (s : State) (b : Byte) (m : Nat) : (s.setDt b).byteAt m = s.byteAt m := rfl

/-! ### setDisp: disp ← d -/

@[simp] theorem State.setDisp_V (s : State) (d : Display) : (s.setDisp d).V = s.V := rfl
@[simp] theorem State.setDisp_pc (s : State) (d : Display) : (s.setDisp d).pc = s.pc := rfl
@[simp] theorem State.setDisp_I (s : State) (d : Display) : (s.setDisp d).I = s.I := rfl
@[simp] theorem State.setDisp_sp (s : State) (d : Display) : (s.setDisp d).sp = s.sp := rfl
@[simp] theorem State.setDisp_stack (s : State) (d : Display) : (s.setDisp d).stack = s.stack := rfl
@[simp] theorem State.setDisp_dt (s : State) (d : Display) : (s.setDisp d).dt = s.dt := rfl
@[simp] theorem State.setDisp_mem (s : State) (d : Display) : (s.setDisp d).mem = s.mem := rfl
@[simp] theorem State.setDisp_disp (s : State) (d : Display) : (s.setDisp d).disp = d := rfl
@[simp] theorem State.setDisp_key (s : State) (d : Display) : (s.setDisp d).key = s.key := rfl
@[simp] theorem State.setDisp_fault (s : State) (d : Display) : (s.setDisp d).fault = s.fault := rfl
@[simp] theorem State.setDisp_started (s : State) (d : Display) : (s.setDisp d).started = s.started := rfl
@[simp] theorem State.setDisp_loaded (s : State) (d : Display) : (s.setDisp d).loaded = s.loaded := rfl
@[simp] theorem State.setDisp_soundWrite (s : State) (d : Display) : (s.setDisp d).soundWrite = s.soundWrite := rfl
@[simp] theorem State.setDisp_rnd (s : State) (d : Display) : (s.setDisp d).rnd = s.rnd := rfl
@[simp] theorem State.setDisp_draws (s : State) (d : Display) : (s.setDisp d).draws = s.draws := rfl
@[simp] theorem State.setDisp_cfg (s : State) (d : Display) : (s.setDisp d).cfg = s.cfg := rfl
@[simp] theorem State.setDisp_v (s : State) (d : Display) (q : Reg) : (s.setDisp d).v q = s.v q := rfl
@[simp] theorem State.setDisp_byteAt (s : State) (d : Display) (m : Nat) : (s.setDisp d).byteAt m = s.byteAt m := rfl

/-! ### strobeSound: sound_write ← b -/

@[simp] theorem State.strobeSound_V (s : State) (b : Byte) : (s.strobeSound b).V = s.V := rfl
@[simp] theorem State.strobeSound_pc (s : State) (b : Byte) : (s.strobeSound b).pc = s.pc := rfl
@[simp] theorem State.strobeSound_I (s : State) (b : Byte) : (s.strobeSound b).I = s.I := rfl
@[simp] theorem State.strobeSound_sp (s : State) (b : Byte) : (s.strobeSound b).sp = s.sp := rfl
@[simp] theorem State.strobeSound_stack (s : State) (b : Byte) : (s.strobeSound b).stack = s.stack := rfl
@[simp] theorem State.strobeSound_dt (s : State) (b : Byte) : (s.strobeSound b).dt = s.dt := rfl
@[simp] theorem State.strobeSound_mem (s : State) (b : Byte) : (s.strobeSound b).mem = s.mem := rfl
@[simp] theorem State.strobeSound_disp (s : State) (b : Byte) : (s.strobeSound b).disp = s.disp := rfl
@[simp] theorem State.strobeSound_key (s : State) (b : Byte) : (s.strobeSound b).key = s.key := rfl
@[simp] theorem State.strobeSound_fault (s : State) (b : Byte) : (s.strobeSound b).fault = s.fault := rfl
@[simp] theorem State.strobeSound_started (s : State) (b : Byte) : (s.strobeSound b).started = s.started := rfl
@[simp] theorem State.strobeSound_loaded (s : State) (b : Byte) : (s.strobeSound b).loaded = s.loaded := rfl
@[simp] theorem State.strobeSound_soundWrite (s : State) (b : Byte) : (s.strobeSound b).soundWrite = some b := rfl
@[simp] theorem State.strobeSound_rnd (s : State) (b : Byte) : (s.strobeSound b).rnd = s.rnd := rfl
@[simp] theorem State.strobeSound_draws (s : State) (b : Byte) : (s.strobeSound b).draws = s.draws := rfl
@[simp] theorem State.strobeSound_cfg (s : State) (b : Byte) : (s.strobeSound b).cfg = s.cfg := rfl
@[simp] theorem State.strobeSound_v (s : State) (b : Byte) (q : Reg) : (s.strobeSound b).v q = s.v q := rfl
@[simp] theorem State.strobeSound_byteAt (s : State) (b : Byte) (m : Nat) : (s.strobeSound b).byteAt m = s.byteAt m := rfl

/-! ### putByte: mem[a] ← b -/

@[simp] theorem State.putByte_V (s : State) (a : Nat) (b : Byte) : (s.putByte a b).V = s.V := rfl
@[simp] theorem State.putByte_pc (s : State) (a : Nat) (b : Byte) : (s.putByte a b).pc = s.pc := rfl
@[simp] theorem State.putByte_I (s : State) (a : Nat) (b : Byte) : (s.putByte a b).I = s.I := rfl
@[simp] theorem State.putByte_sp (s : State) (a : Nat) (b : Byte) : (s.putByte a b).sp = s.sp := rfl
@[simp] theorem State.putByte_stack (s : State) (a : Nat) (b : Byte) : (s.putByte a b).stack = s.stack := rfl
@[simp] theorem State.putByte_dt (s : State) (a : Nat) (b : Byte) : (s.putByte a b).dt = s.dt := rfl
@[simp] theorem State.putByte_mem (s : State) (a : Nat) (b : Byte) : (s.putByte a b).mem = Memory.write s.cfg.font s.mem a b := rfl
@[simp] theorem State.putByte_disp (s : State) (a : Nat) (b : Byte) : (s.putByte a b).disp = s.disp := rfl
@[simp] theorem State.putByte_key (s : State) (a : Nat) (b : Byte) : (s.putByte a b).key = s.key := rfl
@[simp] theorem State.putByte_fault (s : State) (a : Nat) (b : Byte) : (s.putByte a b).fault = s.fault := rfl
@[simp] theorem State.putByte_started (s : State) (a : Nat) (b : Byte) : (s.putByte a b).started = s.started := rfl
@[simp] theorem State.putByte_loaded (s : State) (a : Nat) (b : Byte) : (s.putByte a b).loaded = s.loaded := rfl
@[simp] theorem State.putByte_soundWrite (s : State) (a : Nat) (b : Byte) : (s.putByte a b).soundWrite = s.soundWrite := rfl
@[simp] theorem State.putByte_rnd (s : State) (a : Nat) (b : Byte) : (s.putByte a b).rnd = s.rnd := rfl
@[simp] theorem State.putByte_draws (s : State) (a : Nat) (b : Byte) : (s.putByte a b).draws = s.draws := rfl
@[simp] theorem State.putByte_cfg (s : State) (a : Nat) (b : Byte) : (s.putByte a b).cfg = s.cfg := rfl
@[simp] theorem State.putByte_v (s : State) (a : Nat) (b : Byte) (q : Reg) : (s.putByte a b).v q = s.v q := rfl

/-! ### raise: fault entry -/

@[simp] theorem State.raise_V (s : State) (k : FaultKind) (op : Option Word) (a : Option Nat) : (s.raise k op a).V = s.V := rfl
@[simp] theorem State.raise_pc (s : State) (k : FaultKind) (op : Option Word) (a : Option Nat) : (s.raise k op a).pc = s.pc := rfl
@[simp] theorem State.raise_I (s : State) (k : FaultKind) (op : Option Word) (a : Option Nat) : (s.raise k op a).I = s.I := rfl
@[simp] theorem State.raise_sp (s : State) (k : FaultKind) (op : Option Word) (a : Option Nat) : (s.raise k op a).sp = s.sp := rfl
@[simp] theorem State.raise_stack (s : State) (k : FaultKind) (op : Option Word) (a : Option Nat) : (s.raise k op a).stack = s.stack := rfl
@[simp] theorem State.raise_dt (s : State) (k : FaultKind) (op : Option Word) (a : Option Nat) : (s.raise k op a).dt = s.dt := rfl
@[simp] theorem State.raise_mem (s : State) (k : FaultKind) (op : Option Word) (a : Option Nat) : (s.raise k op a).mem = s.mem := rfl
@[simp] theorem State.raise_disp (s : State) (k : FaultKind) (op : Option Word) (a : Option Nat) : (s.raise k op a).disp = s.disp := rfl
@[simp] theorem State.raise_key (s : State) (k : FaultKind) (op : Option Word) (a : Option Nat) : (s.raise k op a).key = s.key := rfl
@[simp] theorem State.raise_fault (s : State) (k : FaultKind) (op : Option Word) (a : Option Nat) : (s.raise k op a).fault = some { kind := k, pc := s.pc, opcode := op, addr := a } := rfl
@[simp] theorem State.raise_started (s : State) (k : FaultKind) (op : Option Word) (a : Option Nat) : (s.raise k op a).started = true := rfl
@[simp] theorem State.raise_loaded (s : State) (k : FaultKind) (op : Option Word) (a : Option Nat) : (s.raise k op a).loaded = s.loaded := rfl
@[simp] theorem State.raise_soundWrite (s : State) (k : FaultKind) (op : Option Word) (a : Option Nat) : (s.raise k op a).soundWrite = s.soundWrite := rfl
@[simp] theorem State.raise_rnd (s : State) (k : FaultKind) (op : Option Word) (a : Option Nat) : (s.raise k op a).rnd = s.rnd := rfl
@[simp] theorem State.raise_draws (s : State) (k : FaultKind) (op : Option Word) (a : Option Nat) : (s.raise k op a).draws = s.draws := rfl
@[simp] theorem State.raise_cfg (s : State) (k : FaultKind) (op : Option Word) (a : Option Nat) : (s.raise k op a).cfg = s.cfg := rfl
@[simp] theorem State.raise_v (s : State) (k : FaultKind) (op : Option Word) (a : Option Nat) (q : Reg) : (s.raise k op a).v q = s.v q := rfl
@[simp] theorem State.raise_byteAt (s : State) (k : FaultKind) (op : Option Word) (a : Option Nat) (m : Nat) : (s.raise k op a).byteAt m = s.byteAt m := rfl

/-! ### setResultThenFlag: result, then flag -/

@[simp] theorem State.setResultThenFlag_pc (s : State) (x : Reg) (b : Byte) (f : Bool) : (s.setResultThenFlag x b f).pc = s.pc := rfl
@[simp] theorem State.setResultThenFlag_I (s : State) (x : Reg) (b : Byte) (f : Bool) : (s.setResultThenFlag x b f).I = s.I := rfl
@[simp] theorem State.setResultThenFlag_sp (s : State) (x : Reg) (b : Byte) (f : Bool) : (s.setResultThenFlag x b f).sp = s.sp := rfl
@[simp] theorem State.setResultThenFlag_stack (s : State) (x : Reg) (b : Byte) (f : Bool) : (s.setResultThenFlag x b f).stack = s.stack := rfl
@[simp] theorem State.setResultThenFlag_dt (s : State) (x : Reg) (b : Byte) (f : Bool) : (s.setResultThenFlag x b f).dt = s.dt := rfl
@[simp] theorem State.setResultThenFlag_mem (s : State) (x : Reg) (b : Byte) (f : Bool) : (s.setResultThenFlag x b f).mem = s.mem := rfl
@[simp] theorem State.setResultThenFlag_disp (s : State) (x : Reg) (b : Byte) (f : Bool) : (s.setResultThenFlag x b f).disp = s.disp := rfl
@[simp] theorem State.setResultThenFlag_key (s : State) (x : Reg) (b : Byte) (f : Bool) : (s.setResultThenFlag x b f).key = s.key := rfl
@[simp] theorem State.setResultThenFlag_fault (s : State) (x : Reg) (b : Byte) (f : Bool) : (s.setResultThenFlag x b f).fault = s.fault := rfl
@[simp] theorem State.setResultThenFlag_started (s : State) (x : Reg) (b : Byte) (f : Bool) : (s.setResultThenFlag x b f).started = s.started := rfl
@[simp] theorem State.setResultThenFlag_loaded (s : State) (x : Reg) (b : Byte) (f : Bool) : (s.setResultThenFlag x b f).loaded = s.loaded := rfl
@[simp] theorem State.setResultThenFlag_soundWrite (s : State) (x : Reg) (b : Byte) (f : Bool) : (s.setResultThenFlag x b f).soundWrite = s.soundWrite := rfl
@[simp] theorem State.setResultThenFlag_rnd (s : State) (x : Reg) (b : Byte) (f : Bool) : (s.setResultThenFlag x b f).rnd = s.rnd := rfl
@[simp] theorem State.setResultThenFlag_draws (s : State) (x : Reg) (b : Byte) (f : Bool) : (s.setResultThenFlag x b f).draws = s.draws := rfl
@[simp] theorem State.setResultThenFlag_cfg (s : State) (x : Reg) (b : Byte) (f : Bool) : (s.setResultThenFlag x b f).cfg = s.cfg := rfl
@[simp] theorem State.setResultThenFlag_byteAt (s : State) (x : Reg) (b : Byte) (f : Bool) (m : Nat) : (s.setResultThenFlag x b f).byteAt m = s.byteAt m := rfl

/-! ### beginCycle: the start of a cycle -/

@[simp] theorem State.beginCycle_V (s : State) (b : Byte) : (s.beginCycle b).V = s.V := rfl
@[simp] theorem State.beginCycle_pc (s : State) (b : Byte) : (s.beginCycle b).pc = s.pc := rfl
@[simp] theorem State.beginCycle_I (s : State) (b : Byte) : (s.beginCycle b).I = s.I := rfl
@[simp] theorem State.beginCycle_sp (s : State) (b : Byte) : (s.beginCycle b).sp = s.sp := rfl
@[simp] theorem State.beginCycle_stack (s : State) (b : Byte) : (s.beginCycle b).stack = s.stack := rfl
@[simp] theorem State.beginCycle_dt (s : State) (b : Byte) : (s.beginCycle b).dt = s.dt := rfl
@[simp] theorem State.beginCycle_mem (s : State) (b : Byte) : (s.beginCycle b).mem = s.mem := rfl
@[simp] theorem State.beginCycle_disp (s : State) (b : Byte) : (s.beginCycle b).disp = s.disp := rfl
@[simp] theorem State.beginCycle_key (s : State) (b : Byte) : (s.beginCycle b).key = s.key := rfl
@[simp] theorem State.beginCycle_fault (s : State) (b : Byte) : (s.beginCycle b).fault = s.fault := rfl
@[simp] theorem State.beginCycle_started (s : State) (b : Byte) : (s.beginCycle b).started = true := rfl
@[simp] theorem State.beginCycle_loaded (s : State) (b : Byte) : (s.beginCycle b).loaded = s.loaded := rfl
@[simp] theorem State.beginCycle_soundWrite (s : State) (b : Byte) : (s.beginCycle b).soundWrite = none := rfl
@[simp] theorem State.beginCycle_rnd (s : State) (b : Byte) : (s.beginCycle b).rnd = b := rfl
@[simp] theorem State.beginCycle_draws (s : State) (b : Byte) : (s.beginCycle b).draws = s.draws := rfl
@[simp] theorem State.beginCycle_cfg (s : State) (b : Byte) : (s.beginCycle b).cfg = s.cfg := rfl
@[simp] theorem State.beginCycle_v (s : State) (b : Byte) (q : Reg) : (s.beginCycle b).v q = s.v q := rfl
@[simp] theorem State.beginCycle_byteAt (s : State) (b : Byte) (m : Nat) : (s.beginCycle b).byteAt m = s.byteAt m := rfl

/-! ### countDraw: one more draw -/

@[simp] theorem State.countDraw_V (s : State) : s.countDraw.V = s.V := rfl
@[simp] theorem State.countDraw_pc (s : State) : s.countDraw.pc = s.pc := rfl
@[simp] theorem State.countDraw_I (s : State) : s.countDraw.I = s.I := rfl
@[simp] theorem State.countDraw_sp (s : State) : s.countDraw.sp = s.sp := rfl
@[simp] theorem State.countDraw_stack (s : State) : s.countDraw.stack = s.stack := rfl
@[simp] theorem State.countDraw_dt (s : State) : s.countDraw.dt = s.dt := rfl
@[simp] theorem State.countDraw_mem (s : State) : s.countDraw.mem = s.mem := rfl
@[simp] theorem State.countDraw_disp (s : State) : s.countDraw.disp = s.disp := rfl
@[simp] theorem State.countDraw_key (s : State) : s.countDraw.key = s.key := rfl
@[simp] theorem State.countDraw_fault (s : State) : s.countDraw.fault = s.fault := rfl
@[simp] theorem State.countDraw_started (s : State) : s.countDraw.started = s.started := rfl
@[simp] theorem State.countDraw_loaded (s : State) : s.countDraw.loaded = s.loaded := rfl
@[simp] theorem State.countDraw_soundWrite (s : State) : s.countDraw.soundWrite = s.soundWrite := rfl
@[simp] theorem State.countDraw_rnd (s : State) : s.countDraw.rnd = s.rnd := rfl
@[simp] theorem State.countDraw_draws (s : State) : s.countDraw.draws = s.draws + 1 := rfl
@[simp] theorem State.countDraw_cfg (s : State) : s.countDraw.cfg = s.cfg := rfl
@[simp] theorem State.countDraw_v (s : State) (q : Reg) : s.countDraw.v q = s.v q := rfl
@[simp] theorem State.countDraw_byteAt (s : State) (m : Nat) : s.countDraw.byteAt m = s.byteAt m := rfl

/-! ### tick: the timer phase -/

@[simp] theorem State.tick_V (t : State) : t.tick.V = t.V := by
  unfold State.tick; split <;> rfl

@[simp] theorem State.tick_pc (t : State) : t.tick.pc = t.pc := by
  unfold State.tick; split <;> rfl

@[simp] theorem State.tick_I (t : State) : t.tick.I = t.I := by
  unfold State.tick; split <;> rfl

@[simp] theorem State.tick_sp (t : State) : t.tick.sp = t.sp := by
  unfold State.tick; split <;> rfl

@[simp] theorem State.tick_stack (t : State) : t.tick.stack = t.stack := by
  unfold State.tick; split <;> rfl

@[simp] theorem State.tick_mem (t : State) : t.tick.mem = t.mem := by
  unfold State.tick; split <;> rfl

@[simp] theorem State.tick_disp (t : State) : t.tick.disp = t.disp := by
  unfold State.tick; split <;> rfl

@[simp] theorem State.tick_key (t : State) : t.tick.key = t.key := by
  unfold State.tick; split <;> rfl

@[simp] theorem State.tick_fault (t : State) : t.tick.fault = t.fault := by
  unfold State.tick; split <;> rfl

@[simp] theorem State.tick_started (t : State) : t.tick.started = t.started := by
  unfold State.tick; split <;> rfl

@[simp] theorem State.tick_loaded (t : State) : t.tick.loaded = t.loaded := by
  unfold State.tick; split <;> rfl

@[simp] theorem State.tick_soundWrite (t : State) : t.tick.soundWrite = t.soundWrite := by
  unfold State.tick; split <;> rfl

@[simp] theorem State.tick_rnd (t : State) : t.tick.rnd = t.rnd := by
  unfold State.tick; split <;> rfl

@[simp] theorem State.tick_draws (t : State) : t.tick.draws = t.draws := by
  unfold State.tick; split <;> rfl

@[simp] theorem State.tick_cfg (t : State) : t.tick.cfg = t.cfg := by
  unfold State.tick; split <;> rfl

@[simp] theorem State.tick_v (t : State) (q : Reg) : t.tick.v q = t.v q := by
  unfold State.tick; split <;> rfl

@[simp] theorem State.tick_byteAt (t : State) (m : Nat) : t.tick.byteAt m = t.byteAt m := by
  unfold State.tick; split <;> rfl

/-! ### General registers -/

/-- V[q] after V[r] ← b. -/
@[simp] theorem State.setV_v (s : State) (r : Reg) (b : Byte) (q : Reg) :
    (s.setV r b).v q = if q = r then b else s.v q := by
  simp only [State.v, State.setV, Vector.getElem_set, Fin.ext_iff, eq_comm (a := q.val)]

/-- V[q] after V[0] … V[x] are loaded. -/
@[simp] theorem State.loadRegs_v (s : State) (x : Reg) (base : Nat) (q : Reg) :
    (s.loadRegs x base).v q = if q ≤ x then s.byteAt (base + q.val) else s.v q := by
  simp [State.v, State.loadRegs]

/-- V[q] after a result in V[x] and a flag in VF. -/
@[simp] theorem State.setResultThenFlag_v (s : State) (x : Reg) (b : Byte) (f : Bool) (q : Reg) :
    (s.setResultThenFlag x b f).v q = if q = VF then flagByte f else if q = x then b else s.v q := by
  simp [State.setResultThenFlag]

/-- V[q] after a logic result. -/
@[simp] theorem State.setLogic_v (s : State) (x : Reg) (b : Byte) (q : Reg) :
    (s.setLogic x b).v q = if q = VF ∧ s.cfg.logicResetsVF = true then 0 else if q = x then b else s.v q := by
  unfold State.setLogic
  split <;> rename_i h <;> simp [h]

/-! ### setLogic: a logic result -/

@[simp] theorem State.setLogic_pc (s : State) (x : Reg) (b : Byte) : (s.setLogic x b).pc = s.pc := by
  unfold State.setLogic; split <;> rfl

@[simp] theorem State.setLogic_I (s : State) (x : Reg) (b : Byte) : (s.setLogic x b).I = s.I := by
  unfold State.setLogic; split <;> rfl

@[simp] theorem State.setLogic_sp (s : State) (x : Reg) (b : Byte) : (s.setLogic x b).sp = s.sp := by
  unfold State.setLogic; split <;> rfl

@[simp] theorem State.setLogic_stack (s : State) (x : Reg) (b : Byte) : (s.setLogic x b).stack = s.stack := by
  unfold State.setLogic; split <;> rfl

@[simp] theorem State.setLogic_dt (s : State) (x : Reg) (b : Byte) : (s.setLogic x b).dt = s.dt := by
  unfold State.setLogic; split <;> rfl

@[simp] theorem State.setLogic_mem (s : State) (x : Reg) (b : Byte) : (s.setLogic x b).mem = s.mem := by
  unfold State.setLogic; split <;> rfl

@[simp] theorem State.setLogic_disp (s : State) (x : Reg) (b : Byte) : (s.setLogic x b).disp = s.disp := by
  unfold State.setLogic; split <;> rfl

@[simp] theorem State.setLogic_key (s : State) (x : Reg) (b : Byte) : (s.setLogic x b).key = s.key := by
  unfold State.setLogic; split <;> rfl

@[simp] theorem State.setLogic_fault (s : State) (x : Reg) (b : Byte) : (s.setLogic x b).fault = s.fault := by
  unfold State.setLogic; split <;> rfl

@[simp] theorem State.setLogic_started (s : State) (x : Reg) (b : Byte) : (s.setLogic x b).started = s.started := by
  unfold State.setLogic; split <;> rfl

@[simp] theorem State.setLogic_loaded (s : State) (x : Reg) (b : Byte) : (s.setLogic x b).loaded = s.loaded := by
  unfold State.setLogic; split <;> rfl

@[simp] theorem State.setLogic_soundWrite (s : State) (x : Reg) (b : Byte) : (s.setLogic x b).soundWrite = s.soundWrite := by
  unfold State.setLogic; split <;> rfl

@[simp] theorem State.setLogic_rnd (s : State) (x : Reg) (b : Byte) : (s.setLogic x b).rnd = s.rnd := by
  unfold State.setLogic; split <;> rfl

@[simp] theorem State.setLogic_draws (s : State) (x : Reg) (b : Byte) : (s.setLogic x b).draws = s.draws := by
  unfold State.setLogic; split <;> rfl

@[simp] theorem State.setLogic_cfg (s : State) (x : Reg) (b : Byte) : (s.setLogic x b).cfg = s.cfg := by
  unfold State.setLogic; split <;> rfl

@[simp] theorem State.setLogic_byteAt (s : State) (x : Reg) (b : Byte) (m : Nat) :
    (s.setLogic x b).byteAt m = s.byteAt m := by
  unfold State.setLogic; split <;> rfl

/-! ### writeBytes: a block of bytes -/

@[simp] theorem State.writeBytes_V (s : State) (a : Nat) (bs : List Byte) : (s.writeBytes a bs).V = s.V := by
  induction bs generalizing s a with
  | nil => rfl
  | cons b bs ih => exact ih (s.putByte a b) (a + 1)

@[simp] theorem State.writeBytes_pc (s : State) (a : Nat) (bs : List Byte) : (s.writeBytes a bs).pc = s.pc := by
  induction bs generalizing s a with
  | nil => rfl
  | cons b bs ih => exact ih (s.putByte a b) (a + 1)

@[simp] theorem State.writeBytes_I (s : State) (a : Nat) (bs : List Byte) : (s.writeBytes a bs).I = s.I := by
  induction bs generalizing s a with
  | nil => rfl
  | cons b bs ih => exact ih (s.putByte a b) (a + 1)

@[simp] theorem State.writeBytes_sp (s : State) (a : Nat) (bs : List Byte) : (s.writeBytes a bs).sp = s.sp := by
  induction bs generalizing s a with
  | nil => rfl
  | cons b bs ih => exact ih (s.putByte a b) (a + 1)

@[simp] theorem State.writeBytes_stack (s : State) (a : Nat) (bs : List Byte) : (s.writeBytes a bs).stack = s.stack := by
  induction bs generalizing s a with
  | nil => rfl
  | cons b bs ih => exact ih (s.putByte a b) (a + 1)

@[simp] theorem State.writeBytes_dt (s : State) (a : Nat) (bs : List Byte) : (s.writeBytes a bs).dt = s.dt := by
  induction bs generalizing s a with
  | nil => rfl
  | cons b bs ih => exact ih (s.putByte a b) (a + 1)

@[simp] theorem State.writeBytes_disp (s : State) (a : Nat) (bs : List Byte) : (s.writeBytes a bs).disp = s.disp := by
  induction bs generalizing s a with
  | nil => rfl
  | cons b bs ih => exact ih (s.putByte a b) (a + 1)

@[simp] theorem State.writeBytes_key (s : State) (a : Nat) (bs : List Byte) : (s.writeBytes a bs).key = s.key := by
  induction bs generalizing s a with
  | nil => rfl
  | cons b bs ih => exact ih (s.putByte a b) (a + 1)

@[simp] theorem State.writeBytes_fault (s : State) (a : Nat) (bs : List Byte) : (s.writeBytes a bs).fault = s.fault := by
  induction bs generalizing s a with
  | nil => rfl
  | cons b bs ih => exact ih (s.putByte a b) (a + 1)

@[simp] theorem State.writeBytes_started (s : State) (a : Nat) (bs : List Byte) : (s.writeBytes a bs).started = s.started := by
  induction bs generalizing s a with
  | nil => rfl
  | cons b bs ih => exact ih (s.putByte a b) (a + 1)

@[simp] theorem State.writeBytes_loaded (s : State) (a : Nat) (bs : List Byte) : (s.writeBytes a bs).loaded = s.loaded := by
  induction bs generalizing s a with
  | nil => rfl
  | cons b bs ih => exact ih (s.putByte a b) (a + 1)

@[simp] theorem State.writeBytes_soundWrite (s : State) (a : Nat) (bs : List Byte) : (s.writeBytes a bs).soundWrite = s.soundWrite := by
  induction bs generalizing s a with
  | nil => rfl
  | cons b bs ih => exact ih (s.putByte a b) (a + 1)

@[simp] theorem State.writeBytes_rnd (s : State) (a : Nat) (bs : List Byte) : (s.writeBytes a bs).rnd = s.rnd := by
  induction bs generalizing s a with
  | nil => rfl
  | cons b bs ih => exact ih (s.putByte a b) (a + 1)

@[simp] theorem State.writeBytes_draws (s : State) (a : Nat) (bs : List Byte) : (s.writeBytes a bs).draws = s.draws := by
  induction bs generalizing s a with
  | nil => rfl
  | cons b bs ih => exact ih (s.putByte a b) (a + 1)

@[simp] theorem State.writeBytes_cfg (s : State) (a : Nat) (bs : List Byte) : (s.writeBytes a bs).cfg = s.cfg := by
  induction bs generalizing s a with
  | nil => rfl
  | cons b bs ih => exact ih (s.putByte a b) (a + 1)

@[simp] theorem State.writeBytes_v (s : State) (a : Nat) (bs : List Byte) (q : Reg) :
    (s.writeBytes a bs).v q = s.v q := by
  simp [State.v]

/-- A block write changes memory alone. -/
theorem State.writeBytes_eq (s : State) (a : Nat) (bs : List Byte) :
    s.writeBytes a bs = { s with mem := (s.writeBytes a bs).mem } := by
  induction bs generalizing s a with
  | nil => rfl
  | cons b bs ih => exact ih (s.putByte a b) (a + 1)

end Sys2Proof.Machine
end

