-- ==== Sys2Proof/Laws/Memory.lean ====
section
/-! SUPPORT. Memory: read after write, the canonical form, byte blocks and the bounds check (spec/20_memory.md). -/

namespace Sys2Proof.Machine

/-! ### One byte -/

/-- Reading after a write: the written byte at its address, what was there before at every other. -/
theorem Memory.read_write (font : Vector Byte 80) (m : Memory) (a b : Nat) (v : Byte)
    (h : m.Pairwise (fun c d => c.1 < d.1)) :
    Memory.read font (Memory.write font m a v) b = if b = a then v else Memory.read font m b := by
  induction m with
  | nil =>
    simp only [Memory.write, Memory.read]
    split <;> rename_i hv <;> simp only [Memory.read] <;> by_cases hb : b = a <;> simp [hb, hv, eq_comm]
    intro h'; exact absurd h'.symm hb
  | cons c m ih =>
    obtain ⟨k, w⟩ := c
    have hm := (List.pairwise_cons.mp h).2
    have hk := (List.pairwise_cons.mp h).1
    have below : ∀ (l : Memory) (d : Nat), (∀ c ∈ l, d < c.1) → Memory.read font l d = resetByte font d := by
      intro l d hl
      induction l with
      | nil => rfl
      | cons e l ihl =>
        obtain ⟨e1, e2⟩ := e
        have h1 := hl (e1, e2) (by simp)
        have : ¬ e1 = d := by simp only at h1; omega
        simp only [Memory.read, this, if_false]
        exact ihl fun c hc => hl c (by simp [hc])
    simp only [Memory.write]
    split
    · rename_i hak
      have hlow : Memory.read font ((k, w) :: m) a = resetByte font a := by
        apply below
        intro c hc
        rcases List.mem_cons.mp hc with rfl | hc
        · exact hak
        · exact Nat.lt_trans hak (hk c hc)
      split
      · rename_i hv
        by_cases hb : b = a
        · simp [hb, hlow, hv]
        · simp [hb]
      · by_cases hb : b = a
        · simp [hb, Memory.read]
        · have : ¬ a = b := fun e => hb e.symm
          simp [hb, Memory.read, this]
    · split
      · rename_i hak
        subst hak
        have hlow : Memory.read font m a = resetByte font a := below _ _ hk
        split
        · rename_i hv
          by_cases hb : b = a
          · simp [hb, hlow, hv]
          · have : ¬ a = b := fun e => hb e.symm
            simp [hb, Memory.read, this]
        · by_cases hb : b = a
          · simp [hb, Memory.read]
          · have : ¬ a = b := fun e => hb e.symm
            simp [hb, Memory.read, this]
      · rename_i h1 h2
        simp only [Memory.read, ih hm]
        by_cases hkb : k = b
        · have : ¬ b = a := by omega
          simp [hkb, this]
        · simp [hkb]

/-- A write touches only its own address in the list. -/
theorem Memory.mem_write (font : Vector Byte 80) (m : Memory) (a : Nat) (v : Byte) (c : Host.Cell)
    (h : c ∈ Memory.write font m a v) : c ∈ m ∨ (c = (a, v) ∧ v ≠ resetByte font a) := by
  induction m with
  | nil =>
    simp only [Memory.write] at h
    split at h
    · simp at h
    · rename_i hv; simp at h; exact .inr ⟨h, hv⟩
  | cons d m ih =>
    obtain ⟨k, w⟩ := d
    simp only [Memory.write] at h
    split at h
    · split at h
      · exact .inl h
      · rename_i hv
        rcases List.mem_cons.mp h with h | h
        · exact .inr ⟨h, hv⟩
        · exact .inl h
    · split at h
      · split at h
        · exact .inl (List.mem_cons_of_mem _ h)
        · rename_i hv
          rcases List.mem_cons.mp h with h | h
          · exact .inr ⟨h, hv⟩
          · exact .inl (List.mem_cons_of_mem _ h)
      · rcases List.mem_cons.mp h with h | h
        · exact .inl (by rw [h]; exact List.mem_cons_self)
        · rcases ih h with h | h
          · exact .inl (List.mem_cons_of_mem _ h)
          · exact .inr h

/-- A write inside the address space keeps the canonical form. -/
theorem Memory.write_wf (font : Vector Byte 80) (m : Memory) (a : Nat) (v : Byte) (h : Memory.wf font m)
    (ha : a < memSize) : Memory.wf font (Memory.write font m a v) := by
  refine ⟨?_, ?_⟩
  · obtain ⟨hs, -⟩ := h
    induction m with
    | nil => simp only [Memory.write]; split <;> simp
    | cons d m ih =>
      obtain ⟨k, w⟩ := d
      have hm := (List.pairwise_cons.mp hs).2
      have hk := (List.pairwise_cons.mp hs).1
      simp only [Memory.write]
      split
      · rename_i hak
        split
        · exact hs
        · refine List.pairwise_cons.mpr ⟨fun c hc => ?_, hs⟩
          rcases List.mem_cons.mp hc with rfl | hc
          · exact hak
          · exact Nat.lt_trans hak (hk c hc)
      · split
        · rename_i hak
          subst hak
          split
          · exact hm
          · exact List.pairwise_cons.mpr ⟨hk, hm⟩
        · rename_i h1 h2
          refine List.pairwise_cons.mpr ⟨fun c hc => ?_, ih hm⟩
          rcases Memory.mem_write font m a v c hc with hc | ⟨rfl, -⟩
          · exact hk c hc
          · simp only; omega
  · intro c hc
    rcases Memory.mem_write font m a v c hc with hc | ⟨rfl, hv⟩
    · exact h.2 c hc
    · exact ⟨ha, hv⟩

/-- mem[b] after mem[a] ← v. -/
theorem State.byteAt_putByte (s : State) (a b : Nat) (v : Byte) (h : Memory.wf s.cfg.font s.mem) :
    (s.putByte a v).byteAt b = if b = a then v else s.byteAt b :=
  Memory.read_write s.cfg.font s.mem a b v h.1

/-! ### Blocks of bytes -/

/-- A block write inside the address space keeps the canonical form. -/
theorem State.writeBytes_wf (bs : List Byte) (s : State) (base : Nat) (h : Memory.wf s.cfg.font s.mem)
    (hb : base + bs.length ≤ memSize) : Memory.wf (s.writeBytes base bs).cfg.font (s.writeBytes base bs).mem := by
  induction bs generalizing s base with
  | nil => exact h
  | cons b bs ih =>
    simp only [List.length_cons] at hb
    refine ih (s.putByte base b) (base + 1) ?_ (by omega)
    exact Memory.write_wf s.cfg.font s.mem base b h (by omega)

/-- mem[a] after a block write: the block's byte inside the block, what was there before outside it. -/
theorem State.byteAt_writeBytes (bs : List Byte) (s : State) (base a : Nat) (h : Memory.wf s.cfg.font s.mem)
    (hb : base + bs.length ≤ memSize) :
    (s.writeBytes base bs).byteAt a =
      if h : base ≤ a ∧ a - base < bs.length then bs[a - base]'h.2 else s.byteAt a := by
  induction bs generalizing s base with
  | nil => simp [State.writeBytes]
  | cons b bs ih =>
    simp only [List.length_cons] at hb
    have hw : Memory.wf (s.putByte base b).cfg.font (s.putByte base b).mem :=
      Memory.write_wf s.cfg.font s.mem base b h (by omega)
    simp only [State.writeBytes]
    rw [ih (s.putByte base b) (base + 1) hw (by omega), State.byteAt_putByte _ _ _ _ h]
    by_cases h1 : a = base
    · subst h1
      have : ¬ (a + 1 ≤ a) := by omega
      simp [this]
    · by_cases h2 : base + 1 ≤ a ∧ a - (base + 1) < bs.length
      · have h3 : base ≤ a ∧ a - base < bs.length + 1 := by omega
        have h4 : a - base = (a - (base + 1)) + 1 := by omega
        rw [dif_pos h2, dif_pos (by simpa using h3)]
        simp [h4]
      · have h3 : ¬ (base ≤ a ∧ a - base < bs.length + 1) := by omega
        rw [dif_neg h2, if_neg h1, dif_neg (by simpa using h3)]

@[simp] theorem State.length_readBytes (s : State) (base n : Nat) : (s.readBytes base n).length = n := by
  simp [State.readBytes]

@[simp] theorem State.getElem_readBytes (s : State) (base n j : Nat) (h : j < (s.readBytes base n).length) :
    (s.readBytes base n)[j] = s.byteAt (base + j) := by
  simp [State.readBytes]

@[simp] theorem State.length_regsUpTo (s : State) (x : Reg) : (s.regsUpTo x).length = x.val + 1 := by
  simp [State.regsUpTo]

@[simp] theorem State.getElem_regsUpTo (s : State) (x : Reg) (j : Nat) (h : j < (s.regsUpTo x).length) :
    (s.regsUpTo x)[j] = s.v ⟨j, by have := x.isLt; simp at h; omega⟩ := by
  simp [State.regsUpTo, State.v]

/-! ### The bounds check -/

/-- No address of base … base + n − 1 is above 0xFFF. -/
theorem firstOutOfBounds_eq_none (base n : Nat) : firstOutOfBounds base n = none ↔ n = 0 ∨ base + n ≤ memSize := by
  simp only [firstOutOfBounds, List.find?_eq_none, List.mem_map, List.mem_range, memSize, decide_eq_true_eq]
  constructor
  · intro h
    by_cases hn : n = 0
    · exact .inl hn
    · exact .inr (by have := h (base + (n - 1)) ⟨n - 1, by omega, rfl⟩; omega)
  · rintro h x ⟨j, hj, rfl⟩
    omega

/-- The reported address is the lowest one of the block above 0xFFF: the base itself, or 0x1000. -/
theorem firstOutOfBounds_eq_some (base n a : Nat) :
    firstOutOfBounds base n = some a ↔ n ≠ 0 ∧ memSize < base + n ∧ a = max base memSize := by
  constructor
  · intro h
    have hn : ¬ (n = 0 ∨ base + n ≤ memSize) := by
      rw [← firstOutOfBounds_eq_none, h]; simp
    have h' := h
    simp only [firstOutOfBounds, List.find?_map, Option.map_eq_some_iff, List.find?_range_eq_some] at h'
    obtain ⟨j, ⟨hj, hjn, hlow⟩, rfl⟩ := h'
    simp only [Function.comp_apply, decide_eq_true_eq] at hj
    refine ⟨by omega, by omega, ?_⟩
    simp only [memSize] at *
    by_cases hb : 0xFFF < base
    · by_cases h0 : j = 0
      · subst h0; omega
      · have := hlow 0 (by omega); simp at this; omega
    · by_cases h0 : j = 0
      · omega
      · have := hlow (j - 1) (by omega); simp at this; omega
  · rintro ⟨h1, h2, rfl⟩
    simp only [memSize] at *
    simp only [firstOutOfBounds, List.find?_map, Option.map_eq_some_iff, List.find?_range_eq_some]
    refine ⟨max base 4096 - base, ⟨?_, ?_, ?_⟩, by omega⟩
    · simp only [Function.comp_apply, decide_eq_true_eq]; omega
    · simp; omega
    · intro j hj; simp; omega

end Sys2Proof.Machine
end

