-- ==== Sys2Proof/Laws/Display.lean ====
section
/-! SUPPORT. The rasteriser's loops as one formula a pixel (spec/45_display.md R222 to R224). -/

namespace Sys2Proof.Machine

@[simp] theorem Display.pixel_clear (x y : Nat) : Display.clear.pixel x y = false := by
  simp [Display.pixel, Display.clear]

/-- A pixel outside the grid is dark. -/
theorem Display.pixel_outside (d : Display) (x y : Nat) (h : ¬ (x < 64 ∧ y < 32)) : d.pixel x y = false := by
  simp only [Display.pixel]
  split
  · rename_i hy
    have : 64 ≤ x := by omega
    simp [BitVec.getLsbD_of_ge _ _ this]
  · rfl

/-- Two displays with the same pixels are the same. -/
theorem Display.ext_pixel (d e : Display) (h : ∀ x y, x < 64 → y < 32 → d.pixel x y = e.pixel x y) : d = e := by
  apply Vector.ext
  intro y hy
  apply BitVec.eq_of_getLsbD_eq
  intro x hx
  have := h x y hx hy
  simpa [Display.pixel, hy] using this

/-- Flipping a pixel inside the grid changes that pixel and no other. -/
theorem Display.pixel_flip (d : Display) (x y px py : Nat) (hx : x < 64) (hy : y < 32) :
    (d.flip x y).pixel px py = (d.pixel px py ^^ (decide (px = x) && decide (py = y))) := by
  by_cases hin : px < 64 ∧ py < 32
  · obtain ⟨hpx, hpy⟩ := hin
    simp only [Display.flip, hy, dif_pos, Display.pixel, hpy, Vector.getElem_set]
    by_cases h : y = py
    · subst h
      simp only [if_true, BitVec.getLsbD_xor, BitVec.getLsbD_shiftLeft, hpx, decide_true, Bool.true_and, Bool.and_true]
      congr 1
      by_cases h2 : px = x
      · subst h2; simp
      · by_cases h3 : px < x
        · simp [h2, h3]
        · have : ¬ (px - x = 0) := by omega
          simp [h2, h3, this]
    · have : ¬ py = y := fun e => h e.symm
      simp [h, this]
  · have h1 := Display.pixel_outside (d.flip x y) px py hin
    have h2 := Display.pixel_outside d px py hin
    have h3 : ¬ (px = x ∧ py = y) := by omega
    rw [h1, h2]
    by_cases h4 : px = x <;> simp_all

/-- The pixels a sprite row sets: column c of byte b is bit 7 − c (R221), inside the grid (R223). -/
def rowBit (ox py : Nat) (b : Byte) (x y : Nat) : Bool :=
  decide (y = py) && decide (ox ≤ x) && decide (x < ox + 8) && b.getLsbD (7 - (x - ox)) && decide (x < 64) &&
    decide (y < 32)

/-- The pixels of the first `k` columns of a sprite row. -/
def rowBitUpTo (k ox py : Nat) (b : Byte) (x y : Nat) : Bool := rowBit ox py b x y && decide (x < ox + k)

theorem drawColumns_spec (ox py : Nat) (b : Byte) (acc : Display × Bool) (k : Nat) (hk : k ≤ 8) :
    (∀ x y, ((List.range k).foldl (drawPixel ox py b) acc).1.pixel x y = (acc.1.pixel x y ^^ rowBitUpTo k ox py b x y)) ∧
    (((List.range k).foldl (drawPixel ox py b) acc).2 = true ↔
      acc.2 = true ∨ ∃ x y, acc.1.pixel x y = true ∧ rowBitUpTo k ox py b x y = true) := by
  induction k with
  | zero =>
    have h0 : ∀ x y, rowBitUpTo 0 ox py b x y = false := by
      intro x y
      simp only [rowBitUpTo, rowBit]
      by_cases h : x < ox
      · simp [show ¬ (ox ≤ x) by omega]
      · simp [h]
    simp [h0]
  | succ k ih =>
    obtain ⟨ih1, ih2⟩ := ih (by omega)
    rw [List.range_succ, List.foldl_append, List.foldl_cons, List.foldl_nil]
    generalize hg : (List.range k).foldl (drawPixel ox py b) acc = g at ih1 ih2
    have step : ∀ x y, rowBitUpTo (k + 1) ox py b x y =
        (rowBitUpTo k ox py b x y || (decide (x = ox + k) && decide (y = py) && rowBit ox py b (ox + k) py)) := by
      intro x y
      simp only [rowBitUpTo]
      by_cases hx : x = ox + k
      · subst hx
        by_cases hy : y = py
        · subst hy; simp
        · simp [rowBit, hy]
      · have : (decide (x < ox + (k + 1))) = decide (x < ox + k) := by
          rw [decide_eq_decide]; omega
        simp [hx, this]
    have cond : (b.getLsbD (7 - k) && decide (ox + k < dispWidth) && decide (py < dispHeight)) =
        rowBit ox py b (ox + k) py := by
      have : k < 8 := by omega
      simp [rowBit, this]
    simp only [drawPixel, cond]
    by_cases hc : rowBit ox py b (ox + k) py = true
    · have hgrid : ox + k < 64 ∧ py < 32 := by
        simp only [rowBit, Bool.and_eq_true, decide_eq_true_eq] at hc; omega
      have hnew : rowBitUpTo k ox py b (ox + k) py = false := by simp [rowBitUpTo]
      simp only [hc, if_true]
      refine ⟨fun x y => ?_, ?_⟩
      · rw [Display.pixel_flip _ _ _ _ _ hgrid.1 hgrid.2, ih1, step, hc]
        by_cases hx : x = ox + k
        · by_cases hy : y = py
          · subst hx; subst hy; simp [hnew]
          · simp [hy]
        · simp [hx]
      · rw [Bool.or_eq_true, ih2, ih1, hnew, Bool.xor_false, or_assoc]
        refine or_congr_right ⟨?_, ?_⟩
        · rintro (⟨x, y, h1, h2⟩ | h)
          · exact ⟨x, y, h1, by rw [step, h2]; rfl⟩
          · exact ⟨ox + k, py, h, by rw [step, hc]; simp⟩
        · rintro ⟨x, y, h1, h2⟩
          rw [step, Bool.or_eq_true] at h2
          rcases h2 with h2 | h2
          · exact .inl ⟨x, y, h1, h2⟩
          · simp only [Bool.and_eq_true, decide_eq_true_eq] at h2
            obtain ⟨⟨rfl, rfl⟩, -⟩ := h2
            exact .inr h1
    · have hc' : rowBit ox py b (ox + k) py = false := by simpa using hc
      have same : ∀ x y, rowBitUpTo (k + 1) ox py b x y = rowBitUpTo k ox py b x y := by
        intro x y; rw [step, hc']; simp
      simp only [hc', Bool.false_eq_true, if_false, same]
      exact ⟨ih1, ih2⟩

/-- One row: every pixel is XORed with the row's bit, and a collision is recorded when a lit pixel has a set bit. -/
theorem drawRow_spec (ox py : Nat) (b : Byte) (acc : Display × Bool) :
    (∀ x y, (drawRow ox py b acc).1.pixel x y = (acc.1.pixel x y ^^ rowBit ox py b x y)) ∧
    ((drawRow ox py b acc).2 = true ↔ acc.2 = true ∨ ∃ x y, acc.1.pixel x y = true ∧ rowBit ox py b x y = true) := by
  have h := drawColumns_spec ox py b acc 8 (Nat.le_refl 8)
  have same : ∀ x y, rowBitUpTo 8 ox py b x y = rowBit ox py b x y := by
    intro x y
    simp only [rowBitUpTo, rowBit]
    by_cases hx : x < ox + 8 <;> simp [hx]
  simp only [same] at h
  exact h

/-- The pixels a list of sprite rows sets, the first row at line `py`. -/
def rowsBit (ox py : Nat) : List Byte → Nat → Nat → Bool
  | [], _, _ => false
  | b :: bs, x, y => rowBit ox py b x y || rowsBit ox (py + 1) bs x y

theorem rowsBit_below (ox : Nat) (bs : List Byte) (py x y : Nat) (h : y < py) : rowsBit ox py bs x y = false := by
  induction bs generalizing py with
  | nil => rfl
  | cons b bs ih =>
    simp only [rowsBit, ih (py + 1) (by omega), Bool.or_false, rowBit]
    simp [show ¬ (y = py) by omega]

/-- A whole sprite: every pixel is XORed with the sprite's bit, and a collision is recorded exactly when a pixel that
was lit has a set bit. -/
theorem drawRows_spec (ox : Nat) (bs : List Byte) (py : Nat) (acc : Display × Bool) :
    (∀ x y, (drawRows ox py bs acc).1.pixel x y = (acc.1.pixel x y ^^ rowsBit ox py bs x y)) ∧
    ((drawRows ox py bs acc).2 = true ↔ acc.2 = true ∨ ∃ x y, acc.1.pixel x y = true ∧ rowsBit ox py bs x y = true) := by
  induction bs generalizing py acc with
  | nil => simp [drawRows, rowsBit]
  | cons b bs ih =>
    obtain ⟨r1, r2⟩ := drawRow_spec ox py b acc
    obtain ⟨i1, i2⟩ := ih (py + 1) (drawRow ox py b acc)
    have excl : ∀ x y, rowBit ox py b x y = true → rowsBit ox (py + 1) bs x y = false := by
      intro x y h
      apply rowsBit_below
      simp only [rowBit, Bool.and_eq_true, decide_eq_true_eq] at h
      omega
    simp only [drawRows, rowsBit]
    refine ⟨fun x y => ?_, ?_⟩
    · rw [i1, r1]
      by_cases h : rowBit ox py b x y = true
      · simp [h, excl x y h]
      · simp [h]
    · rw [i2, r2, or_assoc]
      refine or_congr_right ⟨?_, ?_⟩
      · rintro (⟨x, y, h1, h2⟩ | ⟨x, y, h1, h2⟩)
        · exact ⟨x, y, h1, by simp [h2]⟩
        · by_cases h : rowBit ox py b x y = true
          · rw [excl x y h] at h2; simp at h2
          · rw [r1] at h1
            exact ⟨x, y, by simpa [h] using h1, by simp [h2]⟩
      · rintro ⟨x, y, h1, h2⟩
        by_cases h : rowBit ox py b x y = true
        · exact .inl ⟨x, y, h1, h⟩
        · refine .inr ⟨x, y, ?_, by simpa [h] using h2⟩
          rw [r1]; simpa [h] using h1

/-- The sprite's bit at a pixel in closed form. -/
theorem rowsBit_eq (ox : Nat) (bs : List Byte) (py x y : Nat) :
    rowsBit ox py bs x y = true ↔
      ∃ r : Nat, ∃ h : r < bs.length, y = py + r ∧ ox ≤ x ∧ x < ox + 8 ∧ bs[r].getLsbD (7 - (x - ox)) = true ∧
        x < 64 ∧ y < 32 := by
  induction bs generalizing py with
  | nil => simp [rowsBit]
  | cons b bs ih =>
    simp only [rowsBit, Bool.or_eq_true, ih, rowBit, Bool.and_eq_true, decide_eq_true_eq]
    constructor
    · rintro (⟨⟨⟨⟨⟨h1, h2⟩, h3⟩, h4⟩, h5⟩, h6⟩ | ⟨r, hr, h1, h2, h3, h4, h5, h6⟩)
      · exact ⟨0, by simp, by omega, h2, h3, by simpa using h4, h5, h6⟩
      · exact ⟨r + 1, by simpa using hr, by omega, h2, h3, by simpa using h4, h5, h6⟩
    · rintro ⟨r, hr, h1, h2, h3, h4, h5, h6⟩
      cases r with
      | zero => exact .inl ⟨⟨⟨⟨⟨by omega, h2⟩, h3⟩, by simpa using h4⟩, h5⟩, h6⟩
      | succ r => exact .inr ⟨r, by simpa using hr, by omega, h2, h3, by simpa using h4, h5, h6⟩

end Sys2Proof.Machine
end

