-- ==== Sys2Proof/Laws/Exec.lean ====
section
/-! SUPPORT. What the shared operations and exec can do, said once: the bounds check, the stack, fault entry, and the
cases of a cycle. -/

namespace Sys2Proof.Machine

/-! ### Accesses at I -/

/-- An access whose bytes all exist has its effect. -/
theorem accessAtI_inBounds (i : Instr) (n : Nat) (s t : State) (h : n = 0 ∨ s.I.toNat + n ≤ memSize) :
    accessAtI i n s t = .next t := by
  simp only [accessAtI, (firstOutOfBounds_eq_none s.I.toNat n).mpr h]

/-- An access with a byte above 0xFFF takes AddressOutOfBounds with the lowest such address. -/
theorem accessAtI_outOfBounds (i : Instr) (n : Nat) (s t : State) (hn : n ≠ 0) (h : memSize < s.I.toNat + n) :
    accessAtI i n s t = .next (s.raise .addressOutOfBounds (some (encode i)) (some (max s.I.toNat memSize))) := by
  simp only [accessAtI, (firstOutOfBounds_eq_some s.I.toNat n _).mpr ⟨hn, h, rfl⟩]

/-- The two cases of an access. -/
theorem accessAtI_cases (i : Instr) (n : Nat) (s t : State) :
    ((n = 0 ∨ s.I.toNat + n ≤ memSize) ∧ accessAtI i n s t = .next t) ∨
    (n ≠ 0 ∧ memSize < s.I.toNat + n ∧
      accessAtI i n s t = .next (s.raise .addressOutOfBounds (some (encode i)) (some (max s.I.toNat memSize)))) := by
  by_cases h : n = 0 ∨ s.I.toNat + n ≤ memSize
  · exact .inl ⟨h, accessAtI_inBounds i n s t h⟩
  · have h1 : n ≠ 0 := fun e => h (.inl e)
    have h2 : memSize < s.I.toNat + n := by omega
    exact .inr ⟨h1, h2, accessAtI_outOfBounds i n s t h1 h2⟩

/-! ### The stack -/

theorem State.push_full (s : State) (w : Word) (h : s.sp.val = 16) : s.push w = none := by
  simp [State.push, h]

theorem State.push_room (s : State) (w : Word) (h : s.sp.val < 16) :
    s.push w = some { s with stack := s.stack.set s.sp.val w, sp := ⟨s.sp.val + 1, by omega⟩ } := by
  simp [State.push, h]

theorem State.pop_empty (s : State) (h : s.sp.val = 0) : s.pop = none := by
  simp [State.pop, h]

theorem State.pop_occupied (s : State) (h : 0 < s.sp.val) :
    s.pop = some (s.stack[s.sp.val - 1], { s with sp := ⟨s.sp.val - 1, by omega⟩ }) := by
  simp [State.pop, h]

/-! ### The outcomes of exec -/

theorem execRet_cases (s : State) :
    (s.sp.val = 0 ∧ execRet s = .next (s.raise .stackUnderflow (some (encode .ret)) none)) ∨
    (∃ h : 0 < s.sp.val, execRet s =
      .next { s with sp := ⟨s.sp.val - 1, by omega⟩, pc := s.stack[s.sp.val - 1] + 2 }) := by
  by_cases h : s.sp.val = 0
  · exact .inl ⟨h, by simp [execRet, State.pop_empty s h]⟩
  · have h' : 0 < s.sp.val := by omega
    exact .inr ⟨h', by simp [execRet, State.pop_occupied s h', State.jumpTo]⟩

theorem execCall_cases (nnn : Addr) (s : State) :
    (s.sp.val = 16 ∧ execCall nnn s = .next (s.raise .stackOverflow (some (encode (.call nnn))) none)) ∨
    (∃ h : s.sp.val < 16, execCall nnn s =
      .next { s with stack := s.stack.set s.sp.val s.pc, sp := ⟨s.sp.val + 1, by omega⟩, pc := zext16 nnn }) := by
  by_cases h : s.sp.val = 16
  · exact .inl ⟨h, by simp [execCall, State.push_full s s.pc h]⟩
  · have h' : s.sp.val < 16 := by omega
    exact .inr ⟨h', by simp [execCall, State.push_room s s.pc h', State.jumpTo]⟩

/-- Every instruction answers a next state: exec itself neither stops nor refuses. -/
theorem exec_next (i : Instr) (s : State) : ∃ t, exec i s = .next t := by
  cases i with
  | ret => rcases execRet_cases s with ⟨_, h⟩ | ⟨_, h⟩ <;> exact ⟨_, h⟩
  | call nnn => rcases execCall_cases nnn s with ⟨_, h⟩ | ⟨_, h⟩ <;> exact ⟨_, h⟩
  | ldVxK x => simp only [exec, execLdVxK]; split <;> exact ⟨_, rfl⟩
  | drw x y n => simp only [exec, execDrw, accessAtI]; split <;> exact ⟨_, rfl⟩
  | ldBVx x => simp only [exec, execLdBVx, accessAtI]; split <;> exact ⟨_, rfl⟩
  | ldIVx x => simp only [exec, execLdIVx, accessAtI]; split <;> exact ⟨_, rfl⟩
  | ldVxI x => simp only [exec, execLdVxI, accessAtI]; split <;> exact ⟨_, rfl⟩
  | _ => exact ⟨_, rfl⟩

/-! ### The cycle -/

@[simp] theorem State.fetchFault_beginCycle (s : State) (b : Byte) : (s.beginCycle b).fetchFault = s.fetchFault := rfl

@[simp] theorem State.fetchWord_beginCycle (s : State) (b : Byte) : (s.beginCycle b).fetchWord = s.fetchWord := rfl

@[simp] theorem State.fetchFault_countDraw (s : State) : s.countDraw.fetchFault = s.fetchFault := rfl

@[simp] theorem State.fetchWord_countDraw (s : State) : s.countDraw.fetchWord = s.fetchWord := rfl

/-- A cycle that faulted has no timer phase. -/
theorem State.tick_faulted (t : State) (h : t.fault ≠ none) : t.tick = t := by
  simp [State.tick, Option.isSome_iff_ne_none, h]

/-- A cycle that did not fault ends with the timer phase. -/
theorem State.tick_running (t : State) (h : t.fault = none) : t.tick = t.setDt (timerNext t.dt) := by
  simp [State.tick, h]

/-- A halted block makes no step. -/
theorem executeCycle_halted (rnd : Byte) (s : State) (r : FaultRecord) (h : s.fault = some r) :
    executeCycle rnd s = .fault (.halted r) := by
  simp [executeCycle, h]

/-- A block that is not halted runs its cycle. -/
theorem executeCycle_running (rnd : Byte) (s : State) (h : s.fault = none) :
    executeCycle rnd s = (s.beginCycle rnd).cycle := by
  simp [executeCycle, h]

/-- A step is a request with the next free draw. -/
theorem step_eq (s : State) : step s = executeCycle (Config.freeRnd s.draws) s.countDraw := rfl

/-- A fetch is in range exactly when both bytes exist and the address is not reserved. -/
theorem State.fetchFault_eq_none (s : State) : s.fetchFault = none ↔
    ¬ (s.cfg.reservedFetchFaults = true ∧ s.pc.toNat < progBase) ∧ s.pc.toNat + 2 ≤ memSize := by
  simp only [State.fetchFault]
  split
  · rename_i h; simp_all
  · rename_i h
    rw [firstOutOfBounds_eq_none]
    simp_all

/-- What one cycle can do: a fetch fault, a decode fault, or the decoded instruction and the timer phase. -/
theorem State.cycle_cases (s : State) :
    (∃ a, s.fetchFault = some a ∧ s.cycle = .next (s.raise .addressOutOfBounds none (some a))) ∨
    (s.fetchFault = none ∧ ∃ op, decode s.cfg.canonicalExtras s.fetchWord = .unimplementedInstruction op ∧
      s.cycle = .next (s.raise .unimplementedInstruction (some op) none)) ∨
    (s.fetchFault = none ∧ ∃ i t, decode s.cfg.canonicalExtras s.fetchWord = .instr i ∧ exec i s = .next t ∧
      s.cycle = .next t.tick) := by
  cases hf : s.fetchFault with
  | some a => exact .inl ⟨a, rfl, by simp [State.cycle, hf]⟩
  | none =>
    cases hd : decode s.cfg.canonicalExtras s.fetchWord with
    | unimplementedInstruction op => exact .inr (.inl ⟨rfl, op, rfl, by simp [State.cycle, hf, hd]⟩)
    | instr i =>
      obtain ⟨t, ht⟩ := exec_next i s
      exact .inr (.inr ⟨rfl, i, t, rfl, ht, by simp [State.cycle, hf, hd, ht, timerPhase]⟩)

end Sys2Proof.Machine
end

