-- ==== Sys2Proof/Laws/Frame.lean ====
section
/-! SUPPORT. What exec leaves alone, said once over all instructions: a part of the state that no write of an
instruction touches is unchanged; when exec takes a fault; and the two readings of a fetch. -/

namespace Sys2Proof.Machine

/-! ### Fetching -/

theorem State.opcodeAtPc_eq_fetchWord (s : State) : s.opcodeAtPc = s.fetchWord := by
  apply BitVec.eq_of_getLsbD_eq
  intro j hj
  simp only [State.opcodeAtPc, State.fetchWord, wordOfBytes, BitVec.getLsbD_or, BitVec.getLsbD_append,
    BitVec.getLsbD_shiftLeft, BitVec.getLsbD_setWidth]
  by_cases h : j < 8
  · simp [h]; intro; omega
  · simp [h, hj]
    have : j - 8 < 16 := by omega
    simp [this, BitVec.getLsbD_of_ge _ j (by omega : 8 ≤ j)]

theorem State.fetchable_iff_fetchFault (s : State) : s.fetchable ↔ s.fetchFault = none := by
  rw [State.fetchFault_eq_none]
  simp only [State.fetchable, progBase, memSize, not_and, not_lt]
  constructor
  · rintro ⟨h1, h2⟩; exact ⟨h1, by omega⟩
  · rintro ⟨h1, h2⟩; exact ⟨h1, by omega⟩

/-! ### A part of the state that an instruction does not write -/

section Frame

variable {α : Type} (f : State → α)

theorem accessAtI_frame (i : Instr) (n : Nat) (s u t : State) (h : accessAtI i n s u = .next t) (hu : f u = f s)
    (hraise : ∀ k o a, f (s.raise k o a) = f s) : f t = f s := by
  rcases accessAtI_cases i n s u with ⟨_, h2⟩ | ⟨_, _, h2⟩ <;> rw [h2] at h <;> injection h with h <;> subst h
  · exact hu
  · exact hraise _ _ _

theorem execRet_frame (s t : State) (h : execRet s = .next t)
    (hu : ∀ sp pc, f { s with sp := sp, pc := pc } = f s) (hraise : ∀ k o a, f (s.raise k o a) = f s) : f t = f s := by
  rcases execRet_cases s with ⟨_, h2⟩ | ⟨_, h2⟩ <;> rw [h2] at h <;> injection h with h <;> subst h
  · exact hraise _ _ _
  · exact hu _ _

theorem execCall_frame (nnn : Addr) (s t : State) (h : execCall nnn s = .next t)
    (hu : ∀ st sp pc, f { s with stack := st, sp := sp, pc := pc } = f s)
    (hraise : ∀ k o a, f (s.raise k o a) = f s) : f t = f s := by
  rcases execCall_cases nnn s with ⟨_, h2⟩ | ⟨_, h2⟩ <;> rw [h2] at h <;> injection h with h <;> subst h
  · exact hraise _ _ _
  · exact hu _ _ _

theorem execLdVxK_frame (x : Reg) (s t : State) (h : execLdVxK x s = .next t)
    (hu : ∀ b, f (s.setV x b).advance = f s) : f t = f s := by
  simp only [execLdVxK] at h
  split at h <;> injection h with h <;> subst h
  · exact hu _
  · rfl

/-- A function of the state that no write of instruction `i` changes has the same value after `i` as before: one
hypothesis for each kind of write, guarded by the instructions that make it. -/
theorem exec_frame (i : Instr) (s t : State) (h : exec i s = .next t)
    (hraise : ∀ k o a, f (s.raise k o a) = f s)
    (hpc : ∀ (u : State) pc, f { u with pc := pc } = f u)
    (hV : ∀ (u : State) v, i ≠ .ret → f { u with V := v } = f u)
    (hI : ∀ (u : State) v, i ≠ .ret → f { u with I := v } = f u)
    (hdt : ∀ (u : State) v, i ≠ .ret → f { u with dt := v } = f u)
    (hcall : ∀ (u : State) a b, (∃ n, i = .call n) → f { u with stack := a, sp := b } = f u)
    (hret : ∀ (u : State) b, i = .ret → f { u with sp := b } = f u)
    (hdisp : ∀ (u : State) v, (i = .cls ∨ ∃ x y n, i = .drw x y n) → f { u with disp := v } = f u)
    (hmem : ∀ (u : State) v, ((∃ x, i = .ldBVx x) ∨ ∃ x, i = .ldIVx x) → f { u with mem := v } = f u)
    (hsound : ∀ (u : State) v, (∃ x, i = .ldStVx x) → f { u with soundWrite := v } = f u) : f t = f s := by
  have hadv : ∀ u : State, f u.advance = f u := fun u => hpc u _
  have hskip : ∀ (u : State) b, f (u.skipIf b) = f u := fun u b => hpc u _
  have hjump : ∀ (u : State) b, f (u.jumpTo b) = f u := fun u b => hpc u _
  have hsetV : ∀ (u : State) r b, i ≠ .ret → f (u.setV r b) = f u := fun u r b h => hV u _ h
  have hsetI : ∀ (u : State) b, i ≠ .ret → f (u.setI b) = f u := fun u b h => hI u _ h
  have hsetDt : ∀ (u : State) b, i ≠ .ret → f (u.setDt b) = f u := fun u b h => hdt u _ h
  have hflag : ∀ (u : State) r b c, i ≠ .ret → f (u.setResultThenFlag r b c) = f u := fun u r b c h => by
    simp only [State.setResultThenFlag, hsetV _ _ _ h]
  have hlogic : ∀ (u : State) r b, i ≠ .ret → f (u.setLogic r b) = f u := fun u r b h => by
    unfold State.setLogic; split <;> simp only [hsetV _ _ _ h]
  cases i
  case ret => exact execRet_frame f s t h (fun sp pc => by rw [hpc { s with sp := sp } pc]; exact hret s sp rfl) hraise
  case call n =>
    exact execCall_frame f _ s t h
      (fun a sp pc => by rw [hpc { s with stack := a, sp := sp } pc]; exact hcall s a sp ⟨n, rfl⟩) hraise
  case ldVxK x => exact execLdVxK_frame f _ s t h (fun b => by rw [hadv, hsetV _ _ _ (by simp)])
  case drw x y n =>
    exact accessAtI_frame f _ _ _ _ _ h
      (by rw [hadv, hsetV _ _ _ (by simp)]; exact hdisp _ _ (.inr ⟨_, _, _, rfl⟩)) hraise
  case ldVxI x =>
    exact accessAtI_frame f _ _ _ _ _ h (by rw [hadv, hsetI _ _ (by simp)]; exact hV _ _ (by simp)) hraise
  case ldBVx x =>
    exact accessAtI_frame f _ _ _ _ _ h (by rw [hadv, State.writeBytes_eq]; exact hmem _ _ (.inl ⟨_, rfl⟩)) hraise
  case ldIVx x =>
    exact accessAtI_frame f _ _ _ _ _ h
      (by rw [hadv, hsetI _ _ (by simp), State.writeBytes_eq]; exact hmem _ _ (.inr ⟨_, rfl⟩)) hraise
  case cls => injection h with h; subst h; rw [hadv]; exact hdisp _ _ (.inl rfl)
  case ldStVx => injection h with h; subst h; rw [hadv]; exact hsound _ _ ⟨_, rfl⟩
  all_goals (injection h with h; subst h)
  all_goals
    first
    | exact hjump _ _
    | exact hskip _ _
    | (rw [hadv]
       first
       | exact hsetV _ _ _ (by simp)
       | exact hflag _ _ _ _ (by simp)
       | exact hlogic _ _ _ (by simp)
       | exact hsetI _ _ (by simp)
       | exact hsetDt _ _ (by simp))

end Frame

/-! ### Storing bytes commutes with the fields a store does not read -/

theorem State.writeBytes_withKey (s : State) (k : Vector Bool 16) (a : Nat) (bs : List Byte) :
    ({ s with key := k } : State).writeBytes a bs = { s.writeBytes a bs with key := k } := by
  induction bs generalizing s a with
  | nil => rfl
  | cons b bs ih => exact ih (s.putByte a b) (a + 1)

theorem State.writeBytes_withRnd (s : State) (r : Byte) (a : Nat) (bs : List Byte) :
    ({ s with rnd := r } : State).writeBytes a bs = { s.writeBytes a bs with rnd := r } := by
  induction bs generalizing s a with
  | nil => rfl
  | cons b bs ih => exact ih (s.putByte a b) (a + 1)

theorem State.writeBytes_withStack (s : State) (w : Vector Word 16) (a : Nat) (bs : List Byte) :
    ({ s with stack := w } : State).writeBytes a bs = { s.writeBytes a bs with stack := w } := by
  induction bs generalizing s a with
  | nil => rfl
  | cons b bs ih => exact ih (s.putByte a b) (a + 1)

theorem State.writeBytes_withSp (s : State) (n : Fin 17) (a : Nat) (bs : List Byte) :
    ({ s with sp := n } : State).writeBytes a bs = { s.writeBytes a bs with sp := n } := by
  induction bs generalizing s a with
  | nil => rfl
  | cons b bs ih => exact ih (s.putByte a b) (a + 1)

/-! ### Faults -/

/-- The three ways `exec i s` can take a fault, with what the raise carries. -/
def RaisedBy (i : Instr) (s t : State) : Prop :=
  ∃ k a, t = s.raise k (some (encode i)) a ∧
    ((k = .addressOutOfBounds ∧ 0 < bytesAccessed i ∧ 0xFFF < s.I.toNat + (bytesAccessed i - 1) ∧
        a = some (max s.I.toNat memSize)) ∨
      (k = .stackOverflow ∧ (∃ n, i = .call n) ∧ s.sp.val = 16 ∧ a = none) ∨
      (k = .stackUnderflow ∧ i = .ret ∧ s.sp.val = 0 ∧ a = none))

theorem accessAtI_raise_cases (i : Instr) (s t u : State) (h : accessAtI i (bytesAccessed i) s u = .next t)
    (hu : u.fault = s.fault ∧ u.started = s.started) :
    (t.fault = s.fault ∧ t.started = s.started) ∨ RaisedBy i s t := by
  rcases accessAtI_cases i (bytesAccessed i) s u with ⟨_, h2⟩ | ⟨h1, h2, h3⟩
  · rw [h2] at h; injection h with h; subst h; exact .inl hu
  · rw [h3] at h; injection h with h; subst h
    simp only [memSize] at *
    exact .inr ⟨_, _, rfl, .inl ⟨rfl, by omega, by omega, rfl⟩⟩

/-- exec leaves the fault record and started alone, or takes one of the three faults. -/
theorem exec_raise_cases (i : Instr) (s t : State) (h : exec i s = .next t) :
    (t.fault = s.fault ∧ t.started = s.started) ∨ RaisedBy i s t := by
  cases i
  case ret =>
    rcases execRet_cases s with ⟨h1, h2⟩ | ⟨_, h2⟩ <;> rw [show exec .ret s = execRet s from rfl, h2] at h <;>
      injection h with h
    · exact .inr ⟨_, _, h.symm, .inr (.inr ⟨rfl, rfl, h1, rfl⟩)⟩
    · subst h; exact .inl ⟨rfl, rfl⟩
  case call n =>
    rcases execCall_cases n s with ⟨h1, h2⟩ | ⟨_, h2⟩ <;>
      rw [show exec (.call n) s = execCall n s from rfl, h2] at h <;> injection h with h
    · exact .inr ⟨_, _, h.symm, .inr (.inl ⟨rfl, ⟨n, rfl⟩, h1, rfl⟩)⟩
    · subst h; exact .inl ⟨rfl, rfl⟩
  case ldVxK x =>
    simp only [exec, execLdVxK] at h
    split at h <;> injection h with h <;> subst h <;> exact .inl ⟨rfl, rfl⟩
  case drw x y n => exact accessAtI_raise_cases _ _ _ _ h ⟨rfl, rfl⟩
  case ldBVx x => exact accessAtI_raise_cases _ _ _ _ h ⟨by simp, by simp⟩
  case ldIVx x => exact accessAtI_raise_cases _ _ _ _ h ⟨by simp, by simp⟩
  case ldVxI x => exact accessAtI_raise_cases _ _ _ _ h ⟨by simp, by simp⟩
  case orReg | andReg | xorReg => all_goals (injection h with h; subst h; exact .inl ⟨by simp, by simp⟩)
  all_goals (injection h with h; subst h; exact .inl ⟨rfl, rfl⟩)

end Sys2Proof.Machine
end

