-- ==== Sys2Proof/Laws/PerInstr.lean ====
section
/-! SUPPORT. Facts stated for every constructor of Instr. EncodeRow: an instruction's word matches its own row of the
opcode table (30_encoding.md R99, R100: "every bit of a pattern is either an operand field or matched exactly"). -/

namespace Sys2Proof.Laws

/-! ### A mask keeps the fixed bits of a packed word and clears its operand fields -/

theorem packAddr_and_class (c : BitVec 4) (nnn : Addr) : packAddr c nnn &&& 0xF000 = packAddr c 0 := by
  apply BitVec.eq_of_getLsbD_eq
  intro j hj
  interval_cases j <;> simp only [packAddr, BitVec.getLsbD_and, BitVec.getLsbD_append] <;> simp

theorem packXKK_and_class (c : BitVec 4) (x : Reg) (kk : Byte) : packXKK c x kk &&& 0xF000 = packXKK c 0 0 := by
  apply BitVec.eq_of_getLsbD_eq
  intro j hj
  interval_cases j <;> simp only [packXKK, BitVec.getLsbD_and, BitVec.getLsbD_append] <;> simp

theorem packXKK_and_sub (c : BitVec 4) (x : Reg) (kk : Byte) : packXKK c x kk &&& 0xF0FF = packXKK c 0 kk := by
  apply BitVec.eq_of_getLsbD_eq
  intro j hj
  interval_cases j <;> simp only [packXKK, BitVec.getLsbD_and, BitVec.getLsbD_append] <;> simp

theorem packXYN_and_class (c : BitVec 4) (x y : Reg) (n : Rows) : packXYN c x y n &&& 0xF000 = packXYN c 0 0 0 := by
  apply BitVec.eq_of_getLsbD_eq
  intro j hj
  interval_cases j <;> simp only [packXYN, BitVec.getLsbD_and, BitVec.getLsbD_append] <;> simp

theorem packXYN_and_sub (c : BitVec 4) (x y : Reg) (n : Rows) : packXYN c x y n &&& 0xF00F = packXYN c 0 0 n := by
  apply BitVec.eq_of_getLsbD_eq
  intro j hj
  interval_cases j <;> simp only [packXYN, BitVec.getLsbD_and, BitVec.getLsbD_append] <;> simp

/-- The word of `i` matches the mask and match columns of the row of `i`. -/
def EncodeRow.Statement (i : Instr) : Prop := matchesRow (opcodeRow i) (encode i) = true

/-! ### One lemma a constructor -/

namespace EncodeRow

theorem cls : Statement .cls := rfl

theorem ret : Statement .ret := rfl

theorem jp (nnn : Addr) : Statement (.jp nnn) := by
  simp only [Statement, matchesRow, opcodeRow, encode, packAddr_and_class]; rfl

theorem call (nnn : Addr) : Statement (.call nnn) := by
  simp only [Statement, matchesRow, opcodeRow, encode, packAddr_and_class]; rfl

theorem seImm (x : Reg) (kk : Byte) : Statement (.seImm x kk) := by
  simp only [Statement, matchesRow, opcodeRow, encode, packXKK_and_class]; rfl

theorem sneImm (x : Reg) (kk : Byte) : Statement (.sneImm x kk) := by
  simp only [Statement, matchesRow, opcodeRow, encode, packXKK_and_class]; rfl

theorem seReg (x y : Reg) : Statement (.seReg x y) := by
  simp only [Statement, matchesRow, opcodeRow, encode, packXYN_and_sub]; rfl

theorem ldImm (x : Reg) (kk : Byte) : Statement (.ldImm x kk) := by
  simp only [Statement, matchesRow, opcodeRow, encode, packXKK_and_class]; rfl

theorem addImm (x : Reg) (kk : Byte) : Statement (.addImm x kk) := by
  simp only [Statement, matchesRow, opcodeRow, encode, packXKK_and_class]; rfl

theorem ldReg (x y : Reg) : Statement (.ldReg x y) := by
  simp only [Statement, matchesRow, opcodeRow, encode, packXYN_and_sub]; rfl

theorem orReg (x y : Reg) : Statement (.orReg x y) := by
  simp only [Statement, matchesRow, opcodeRow, encode, packXYN_and_sub]; rfl

theorem andReg (x y : Reg) : Statement (.andReg x y) := by
  simp only [Statement, matchesRow, opcodeRow, encode, packXYN_and_sub]; rfl

theorem xorReg (x y : Reg) : Statement (.xorReg x y) := by
  simp only [Statement, matchesRow, opcodeRow, encode, packXYN_and_sub]; rfl

theorem addReg (x y : Reg) : Statement (.addReg x y) := by
  simp only [Statement, matchesRow, opcodeRow, encode, packXYN_and_sub]; rfl

theorem sub (x y : Reg) : Statement (.sub x y) := by
  simp only [Statement, matchesRow, opcodeRow, encode, packXYN_and_sub]; rfl

theorem shr (x y : Reg) : Statement (.shr x y) := by
  simp only [Statement, matchesRow, opcodeRow, encode, packXYN_and_sub]; rfl

theorem subn (x y : Reg) : Statement (.subn x y) := by
  simp only [Statement, matchesRow, opcodeRow, encode, packXYN_and_sub]; rfl

theorem shl (x y : Reg) : Statement (.shl x y) := by
  simp only [Statement, matchesRow, opcodeRow, encode, packXYN_and_sub]; rfl

theorem sneReg (x y : Reg) : Statement (.sneReg x y) := by
  simp only [Statement, matchesRow, opcodeRow, encode, packXYN_and_sub]; rfl

theorem ldI (nnn : Addr) : Statement (.ldI nnn) := by
  simp only [Statement, matchesRow, opcodeRow, encode, packAddr_and_class]; rfl

theorem jpV0 (nnn : Addr) : Statement (.jpV0 nnn) := by
  simp only [Statement, matchesRow, opcodeRow, encode, packAddr_and_class]; rfl

theorem rnd (x : Reg) (kk : Byte) : Statement (.rnd x kk) := by
  simp only [Statement, matchesRow, opcodeRow, encode, packXKK_and_class]; rfl

theorem drw (x y : Reg) (n : Rows) : Statement (.drw x y n) := by
  simp only [Statement, matchesRow, opcodeRow, encode, packXYN_and_class]; rfl

theorem skp (x : Reg) : Statement (.skp x) := by
  simp only [Statement, matchesRow, opcodeRow, encode, packXKK_and_sub]; rfl

theorem sknp (x : Reg) : Statement (.sknp x) := by
  simp only [Statement, matchesRow, opcodeRow, encode, packXKK_and_sub]; rfl

theorem ldVxDt (x : Reg) : Statement (.ldVxDt x) := by
  simp only [Statement, matchesRow, opcodeRow, encode, packXKK_and_sub]; rfl

theorem ldVxK (x : Reg) : Statement (.ldVxK x) := by
  simp only [Statement, matchesRow, opcodeRow, encode, packXKK_and_sub]; rfl

theorem ldDtVx (x : Reg) : Statement (.ldDtVx x) := by
  simp only [Statement, matchesRow, opcodeRow, encode, packXKK_and_sub]; rfl

theorem ldStVx (x : Reg) : Statement (.ldStVx x) := by
  simp only [Statement, matchesRow, opcodeRow, encode, packXKK_and_sub]; rfl

theorem addIVx (x : Reg) : Statement (.addIVx x) := by
  simp only [Statement, matchesRow, opcodeRow, encode, packXKK_and_sub]; rfl

theorem ldFVx (x : Reg) : Statement (.ldFVx x) := by
  simp only [Statement, matchesRow, opcodeRow, encode, packXKK_and_sub]; rfl

theorem ldBVx (x : Reg) : Statement (.ldBVx x) := by
  simp only [Statement, matchesRow, opcodeRow, encode, packXKK_and_sub]; rfl

theorem ldIVx (x : Reg) : Statement (.ldIVx x) := by
  simp only [Statement, matchesRow, opcodeRow, encode, packXKK_and_sub]; rfl

theorem ldVxI (x : Reg) : Statement (.ldVxI x) := by
  simp only [Statement, matchesRow, opcodeRow, encode, packXKK_and_sub]; rfl

end EncodeRow

end Sys2Proof.Laws
end

