-- ==== Sys2Proof/Tests/Slice0.lean ====
section
/-! SUPPORT. Tests of the model on fixed values, and for each obligation with hypotheses a state that meets them. The
expected values come from spec/95_test_vectors.md (the vector is named), from 30_encoding.md and from the rules named. -/

namespace Sys2Proof.Tests

open Sys2Proof Sys2Proof.Machine

/-! ### Helpers -/

/-- The state of a step that answered one. -/
def nextOf : Result → Option State
  | .next t => some t
  | .fault _ => none
  | .refused _ => none

/-- `s` with the listed registers written. -/
def withRegs (ps : List (Reg × Byte)) (s : State) : State := ps.foldl (fun s p => s.setV p.1 p.2) s

/-- `s` with the listed bytes written from `a` on. -/
def withBytes (a : Nat) (bs : List Byte) (s : State) : State := s.writeBytes a bs

/-- `s` with the one pixel (x, y) lit. -/
def withPixel (x y : Nat) (s : State) : State := s.setDisp (Display.clear.flip x y)

/-- `s` with CANONICAL_EXTRAS true. -/
def withExtras (s : State) : State := { s with cfg := { s.cfg with canonicalExtras := true } }

/-- `s` with exactly the listed keys pressed. -/
def withKeys (ks : List (Fin 16)) (s : State) : State := { s with key := Vector.ofFn fun k => decide (k ∈ ks) }

/-- `s` with `n` calls outstanding and these slots. -/
def withStack (n : Fin 17) (slots : List (Fin 16 × Word)) (s : State) : State :=
  { s with sp := n, stack := slots.foldl (fun st p => st.set p.1.val p.2) s.stack }

/-- The state at a pc. -/
def atPc (pc : Word) : State := { State.reset with pc := pc }

/-- One cycle of the word `op` placed at pc, with random byte 0xA5. -/
def runWord (s : State) (op : Word) : Option State := nextOf (executeCycle 0xA5 (s.placeFetchWord op))

/-- What one cycle of the word `op` leaves, seen through `f`. -/
def after {α : Type} (s : State) (op : Word) (f : State → α) : Option α := (runWord s op).map f

/-! ### WellFormed: each of the six extras is ill-formed without CANONICAL_EXTRAS (R8, E9) -/

theorem test_ill_formed_ldReg : Instr.wellFormed defaultConfig (.ldReg 1 2) = false := by decide
theorem test_ill_formed_subn : Instr.wellFormed defaultConfig (.subn 1 2) = false := by decide
theorem test_ill_formed_jpV0 : Instr.wellFormed defaultConfig (.jpV0 0x300) = false := by decide
theorem test_ill_formed_ldVxK : Instr.wellFormed defaultConfig (.ldVxK 1) = false := by decide
theorem test_ill_formed_ldStVx : Instr.wellFormed defaultConfig (.ldStVx 1) = false := by decide
theorem test_ill_formed_addIVx : Instr.wellFormed defaultConfig (.addIVx 1) = false := by decide

theorem test_well_formed_with_extras :
    ([.ldReg 1 2, .subn 1 2, .jpV0 0x300, .ldVxK 1, .ldStVx 1, .addIVx 1, .shr 0 1] : List Instr).all
      (Instr.wellFormed { defaultConfig with canonicalExtras := true }) = true := by decide

theorem test_well_formed_base : Instr.wellFormed defaultConfig (.drw 15 15 0) = true := by decide

/-! ### Decode: a word for each constructor, written bit by bit from opcode_table.json's encodings (R95, R96) -/

theorem test_decode_flow :
    decode false 0b0000000011100000#16 = .instr .cls ∧
    decode false 0b0000000011101110#16 = .instr .ret ∧
    decode false 0b0001101010111100#16 = .instr (.jp 0xABC) ∧
    decode false 0b0010000000010010#16 = .instr (.call 0x012) ∧
    decode true 0b1011111111110001#16 = .instr (.jpV0 0xFF1) := by decide

theorem test_decode_skips :
    decode false 0b0011010111100001#16 = .instr (.seImm 5 0xE1) ∧
    decode false 0b0100110100000111#16 = .instr (.sneImm 13 0x07) ∧
    decode false 0b0101000111100000#16 = .instr (.seReg 1 14) ∧
    decode false 0b1001011110000000#16 = .instr (.sneReg 7 8) ∧
    decode false 0b1110001110011110#16 = .instr (.skp 3) ∧
    decode false 0b1110110010100001#16 = .instr (.sknp 12) := by decide

theorem test_decode_loads :
    decode false 0b0110000000001010#16 = .instr (.ldImm 0 0x0A) ∧
    decode false 0b0111111110000001#16 = .instr (.addImm 15 0x81) ∧
    decode true 0b1000000100100000#16 = .instr (.ldReg 1 2) ∧
    decode false 0b1010000100100011#16 = .instr (.ldI 0x123) ∧
    decode false 0b1100100101010110#16 = .instr (.rnd 9 0x56) := by decide

theorem test_decode_class8 :
    decode false 0b1000000100100001#16 = .instr (.orReg 1 2) ∧
    decode false 0b1000001101000010#16 = .instr (.andReg 3 4) ∧
    decode false 0b1000010101100011#16 = .instr (.xorReg 5 6) ∧
    decode false 0b1000000000010100#16 = .instr (.addReg 0 1) ∧
    decode false 0b1000100110100101#16 = .instr (.sub 9 10) ∧
    decode false 0b1000101111000110#16 = .instr (.shr 11 12) ∧
    decode true 0b1000110111100111#16 = .instr (.subn 13 14) ∧
    decode false 0b1000111100001110#16 = .instr (.shl 15 0) := by decide

theorem test_decode_draw : decode false 0b1101000100100011#16 = .instr (.drw 1 2 3) := by decide

theorem test_decode_classF :
    decode false 0b1111000100000111#16 = .instr (.ldVxDt 1) ∧
    decode true 0b1111001000001010#16 = .instr (.ldVxK 2) ∧
    decode false 0b1111001100010101#16 = .instr (.ldDtVx 3) ∧
    decode true 0b1111010000011000#16 = .instr (.ldStVx 4) ∧
    decode true 0b1111010100011110#16 = .instr (.addIVx 5) ∧
    decode false 0b1111011000101001#16 = .instr (.ldFVx 6) ∧
    decode false 0b1111011100110011#16 = .instr (.ldBVx 7) ∧
    decode false 0b1111100001010101#16 = .instr (.ldIVx 8) ∧
    decode false 0b1111100101100101#16 = .instr (.ldVxI 9) := by decide

/-- E1 to E8, E12: rejected with the word itself, whatever CANONICAL_EXTRAS is. -/
theorem test_decode_rejects :
    ([0x0000, 0x0123, 0x00E1, 0x5121, 0x912F, 0x8128, 0x8129, 0x812A, 0x812B, 0x812C, 0x812D, 0x812F, 0xE19F, 0xF100,
      0xF116, 0xF166, 0xFFFF] : List Word).all
      (fun op => decide (decode false op = .unimplementedInstruction op ∧
        decode true op = .unimplementedInstruction op)) = true := by decide

/-- E9: the extras are rejected when CANONICAL_EXTRAS is false. -/
theorem test_decode_rejects_extras :
    ([0x8120, 0x8127, 0xB200, 0xF10A, 0xF118, 0xF11E] : List Word).all
      (fun op => decide (decode false op = .unimplementedInstruction op)) = true := by decide

/-- E11: DRW with n = 0 is legal. -/
theorem test_decode_drw_zero_rows : decode false 0xD120 = .instr (.drw 1 2 0) := by decide

/-- Vector 1.1: the byte at the lower address is the high byte. -/
theorem test_decode_bytes : decodeBytes false 0x80 0x14 = .instr (.addReg 0 1) := by decide

theorem test_encode_fields :
    encode (.drw 1 2 3) = 0xD123 ∧ encode (.call 0x250) = 0x2250 ∧ encode (.ldImm 1 0x0B) = 0x610B ∧
    encode (.shl 15 0) = 0x8F0E ∧ encode (.sknp 12) = 0xECA1 := by decide

theorem test_decode_table_word : decodeTableWord 16 0xF30A = some (.ldVxK 3) ∧ decodeTableWord 16 0x0123 = none := by
  decide

/-! ### Fetch and the cycle -/

/-- Y1. -/
theorem test_fetch_reserved :
    after (atPc 0x1FE) 0x6001 State.fault = some (some ⟨.addressOutOfBounds, 0x1FE, none, some 0x1FE⟩) := by decide

/-- Y2. -/
theorem test_fetch_reserved_allowed :
    after { atPc 0x1FE with cfg := { defaultConfig with reservedFetchFaults := false } } 0x6001
      (fun t => (t.v 0, t.pc, t.fault)) = some (1, 0x200, none) := by decide

/-- Y3, Y4. -/
theorem test_fetch_past_end :
    (nextOf (executeCycle 0 (atPc 0xFFF))).map State.fault =
      some (some ⟨.addressOutOfBounds, 0xFFF, none, some 0x1000⟩) ∧
    (nextOf (executeCycle 0 (atPc 0x1000))).map State.fault =
      some (some ⟨.addressOutOfBounds, 0x1000, none, some 0x1000⟩) := by decide

/-- Y5. -/
theorem test_fetch_last_word : after (withPixel 63 31 (atPc 0xFFE)) 0x00E0
    (fun t => (t.disp.pixel 63 31, t.pc, t.fault)) = some (false, 0x1000, none) := by decide

/-- Y6. -/
theorem test_fetch_odd_pc : after (atPc 0x201) 0x6007 (fun t => (t.v 0, t.pc, t.fault)) = some (7, 0x203, none) := by
  decide

/-- Y7. -/
theorem test_fault_skips_timer : after { State.reset with dt := 5 } 0xFFFF
    (fun t => (t.dt, t.started, t.pc, t.fault)) =
      some (5, true, 0x200, some ⟨.unimplementedInstruction, 0x200, some 0xFFFF, none⟩) := by decide

/-- Y8. -/
theorem test_timer_phase : after { State.reset with dt := 5 } 0x6000 State.dt = some 4 := by decide

/-- Y9: a halted block makes no step. -/
theorem test_halted_block :
    executeCycle 0 { State.reset with fault := some ⟨.stackOverflow, 0x400, some 0x2500, none⟩ } =
      .fault (.halted ⟨.stackOverflow, 0x400, some 0x2500, none⟩) := rfl

/-- Y10, 70_reset_and_hazards.md R336. -/
theorem test_first_step_of_empty_memory :
    (nextOf (executeCycle 0 State.reset)).map (fun t => (t.fault, t.pc)) =
      some (some ⟨.unimplementedInstruction, 0x200, some 0x0000, none⟩, 0x200) := by decide

/-- The step of the machine on a placed table word: vector 1.9, first cycle. -/
theorem test_step_with_fetch_word :
    (nextOf (step (State.reset.withFetchWord 16 0x2250))).map (fun t => (t.pc, t.sp, t.stack[0])) =
      some (0x250, 1, 0x200) := by decide

/-- A placed extra runs, although CANONICAL_EXTRAS is false at reset (log 9). -/
theorem test_step_with_fetch_word_extra :
    (nextOf (step ((withRegs [(5, 0x33)] State.reset).withFetchWord 16 0x8150))).map (fun t => (t.v 1, t.fault)) =
      some (0x33, none) := by decide

/-! ### Control transfer -/

/-- F1, F4. -/
theorem test_jp : after State.reset 0x1234 State.pc = some 0x234 ∧ after State.reset 0x1203 State.pc = some 0x203 := by
  decide

/-- F6. -/
theorem test_call_last_slot : after (withStack 15 [] (atPc 0x400)) 0x2500 (fun t => (t.stack[15], t.sp, t.pc)) =
    some (0x400, 16, 0x500) := by decide

/-- F7. -/
theorem test_call_overflow : after (withStack 16 [] (atPc 0x400)) 0x2500 (fun t => (t.fault, t.sp, t.pc)) =
    some (some ⟨.stackOverflow, 0x400, some 0x2500, none⟩, 16, 0x400) := by decide

/-- F8. -/
theorem test_ret_underflow : after State.reset 0x00EE (fun t => (t.fault, t.sp)) =
    some (some ⟨.stackUnderflow, 0x200, some 0x00EE, none⟩, 0) := by decide

/-- F9. -/
theorem test_ret : after (withStack 2 [(0, 0x200), (1, 0x300)] State.reset) 0x00EE
    (fun t => (t.sp, t.pc, t.stack[1])) = some (1, 0x302, 0x300) := by decide

/-- F12. -/
theorem test_jpV0_past_end : after (withRegs [(0, 0xFF)] (withExtras State.reset)) 0xBFFF State.pc = some 0x10FE := by
  decide

/-- F13. -/
theorem test_jpV0_uses_v0 : after (withRegs [(0, 0x01), (5, 0x80)] (withExtras State.reset)) 0xB500 State.pc =
    some 0x501 := by decide

/-! ### Skips -/

/-- S1, S2. -/
theorem test_seImm : after (withRegs [(3, 0x42)] State.reset) 0x3342 State.pc = some 0x204 ∧
    after (withRegs [(3, 0x42)] State.reset) 0x3341 State.pc = some 0x202 := by decide

/-- S10. -/
theorem test_seImm_past_end : after (atPc 0xFFE) 0x3000 (fun t => (t.pc, t.fault)) = some (0x1002, none) := by decide

/-- S3, S4. -/
theorem test_sneImm : after State.reset 0x4001 State.pc = some 0x204 ∧
    after (withRegs [(0, 1)] State.reset) 0x4001 State.pc = some 0x202 := by decide

/-- S5, S6. -/
theorem test_seReg : after (withRegs [(1, 7), (2, 7)] State.reset) 0x5120 State.pc = some 0x204 ∧
    after (withRegs [(1, 7)] State.reset) 0x5110 State.pc = some 0x204 := by decide

/-- S7, S8. -/
theorem test_sneReg : after (withRegs [(1, 7), (2, 8)] State.reset) 0x9120 State.pc = some 0x204 ∧
    after (withRegs [(1, 7)] State.reset) 0x9110 State.pc = some 0x202 := by decide

/-- K1, K3. -/
theorem test_skp : after (withRegs [(2, 5)] (withKeys [5] State.reset)) 0xE29E State.pc = some 0x204 ∧
    after (withRegs [(2, 0x15)] (withKeys [5] State.reset)) 0xE29E State.pc = some 0x204 := by decide

/-- K2. -/
theorem test_skp_not_pressed : after (withRegs [(2, 5)] State.reset) 0xE29E State.pc = some 0x202 := by decide

/-- K4, K5. -/
theorem test_sknp : after (withRegs [(2, 5)] State.reset) 0xE2A1 State.pc = some 0x204 ∧
    after (withRegs [(2, 5)] (withKeys [5] State.reset)) 0xE2A1 State.pc = some 0x202 := by decide

/-- K6. -/
theorem test_ldVxK : after (withKeys [7, 9] (withExtras State.reset)) 0xF30A (fun t => (t.v 3, t.pc)) =
    some (7, 0x202) := by decide

/-- K7. -/
theorem test_ldVxK_waits : after (withRegs [(3, 0x44)] (withExtras { State.reset with dt := 3 })) 0xF30A
    (fun t => (t.pc, t.v 3, t.dt)) = some (0x200, 0x44, 2) := by decide

/-! ### Loads and arithmetic -/

/-- A1. -/
theorem test_ldImm : after State.reset 0x6FAB (fun t => (t.v 15, t.pc)) = some (0xAB, 0x202) := by decide

/-- A2. -/
theorem test_addImm_no_carry_flag : after (withRegs [(2, 0xFE), (15, 0x77)] State.reset) 0x7203
    (fun t => (t.v 2, t.v 15)) = some (0x01, 0x77) := by decide

/-- A26. -/
theorem test_ldReg : after (withRegs [(5, 0x33)] (withExtras State.reset)) 0x8150 (fun t => (t.v 1, t.v 5)) =
    some (0x33, 0x33) := by decide

/-- A4. -/
theorem test_or : after (withRegs [(0, 0x0F), (1, 0xF0), (15, 0x55)] State.reset) 0x8011 (fun t => (t.v 0, t.v 15)) =
    some (0xFF, 0x55) := by decide

/-- A8, second part. -/
theorem test_or_resets_flag_last :
    after (withRegs [(15, 0x0F), (1, 0xF0)] { State.reset with cfg := { defaultConfig with logicResetsVF := true } })
      0x8F11 (fun t => t.v 15) = some 0 := by decide

/-- A6. -/
theorem test_and : after (withRegs [(0, 0x3C), (1, 0x0F)] State.reset) 0x8012 (fun t => t.v 0) = some 0x0C := by decide

/-- A7. -/
theorem test_xor_same : after (withRegs [(0, 0x5A)] State.reset) 0x8003 (fun t => t.v 0) = some 0 := by decide

/-- A9. -/
theorem test_addReg_carry : after (withRegs [(0, 0xFF), (1, 0x01)] State.reset) 0x8014 (fun t => (t.v 0, t.v 15)) =
    some (0, 1) := by decide

/-- A11. -/
theorem test_addReg_flag_overwrites : after (withRegs [(15, 0xF0), (1, 0x20)] State.reset) 0x8F14 (fun t => t.v 15) =
    some 1 := by decide

/-- A13, A15. -/
theorem test_sub : after (withRegs [(0, 5), (1, 7)] State.reset) 0x8015 (fun t => (t.v 0, t.v 15)) = some (0xFE, 0) ∧
    after (withRegs [(0, 9), (1, 9)] State.reset) 0x8015 (fun t => (t.v 0, t.v 15)) = some (0, 1) := by decide

/-- A27, A28. -/
theorem test_subn :
    after (withRegs [(0, 5), (1, 7)] (withExtras State.reset)) 0x8017 (fun t => (t.v 0, t.v 15)) = some (2, 1) ∧
    after (withRegs [(0, 7), (1, 5)] (withExtras State.reset)) 0x8017 (fun t => (t.v 0, t.v 15)) = some (0xFE, 0) := by
  decide

/-- A18, A20. -/
theorem test_shr : after (withRegs [(3, 5)] State.reset) 0x8306 (fun t => (t.v 3, t.v 15)) = some (2, 1) ∧
    after (withRegs [(1, 3)] State.reset) 0x8016 (fun t => (t.v 0, t.v 15)) = some (0, 0) := by decide

/-- A21. -/
theorem test_shr_uses_vy :
    after (withRegs [(1, 3)] { State.reset with cfg := { defaultConfig with shiftUsesVy := true } }) 0x8016
      (fun t => (t.v 0, t.v 15)) = some (1, 1) := by decide

/-- A22, A24. -/
theorem test_shl : after (withRegs [(3, 0x81)] State.reset) 0x830E (fun t => (t.v 3, t.v 15)) = some (2, 1) ∧
    after (withRegs [(15, 0x81)] State.reset) 0x8F0E (fun t => t.v 15) = some 1 := by decide

/-! ### Index, random, sound -/

/-- I2. -/
theorem test_ldI : after State.reset 0xAFFF (fun t => (t.I, t.pc)) = some (0xFFF, 0x202) := by decide

/-- I3 (the random byte of runWord is 0xA5). -/
theorem test_rnd : after State.reset 0xC30F (fun t => t.v 3) = some 0x05 := by decide

/-- I6. -/
theorem test_rnd_vf : (nextOf (executeCycle 0xAB (State.reset.placeFetchWord 0xCF0F))).map (fun t => t.v 15) =
    some 0x0B := by decide

/-- M21. -/
theorem test_ldStVx : after (withRegs [(0, 0x10)] (withExtras State.reset)) 0xF018
    (fun t => (t.soundWritePort, t.pc, t.dt)) = some (some 0x10, 0x202, 0) := by decide

/-- M23, M24. -/
theorem test_addIVx :
    after (withRegs [(2, 1)] (withExtras (State.reset.setI 0xFFF))) 0xF21E (fun t => (t.I, t.fault)) =
      some (0x1000, none) ∧
    after (withRegs [(2, 0x20)] (withExtras (State.reset.setI 0xFFF0))) 0xF21E State.I = some 0x0010 := by decide

/-- M7, M8. -/
theorem test_ldFVx : after (withRegs [(0, 0x0F)] State.reset) 0xF029 State.I = some 0x04B ∧
    after (withRegs [(0, 0x1A)] State.reset) 0xF029 State.I = some 0x032 := by decide

/-! ### Delay timer -/

/-- M1: Fx07 reads the timer before it counts down. -/
theorem test_ldVxDt : after { State.reset with dt := 0x3C } 0xF507 (fun t => (t.v 5, t.dt)) = some (0x3C, 0x3B) := by
  decide

/-- M4, M5. -/
theorem test_ldDtVx : after (withRegs [(1, 1)] State.reset) 0xF115 State.dt = some 0 ∧
    after (withRegs [(1, 0xFF)] State.reset) 0xF115 State.dt = some 0xFE := by decide

/-! ### Block transfers -/

/-- M9. -/
theorem test_ldBVx : after (withRegs [(4, 0x9C)] (State.reset.setI 0x300)) 0xF433
    (fun t => (t.readBytes 0x300 3, t.I)) = some ([1, 5, 6], 0x300) := by decide

/-- M13. -/
theorem test_ldBVx_out_of_bounds : after (withRegs [(4, 7)] (State.reset.setI 0xFFE)) 0xF433
    (fun t => (t.fault, t.byteAt 0xFFE)) =
      some (some ⟨.addressOutOfBounds, 0x200, some 0xF433, some 0x1000⟩, 0) := by decide

/-- M14, M15. -/
theorem test_ldIVx :
    after (withRegs [(0, 1), (1, 2), (2, 3)] (State.reset.setI 0x400)) 0xF255
      (fun t => (t.readBytes 0x400 4, t.I)) = some ([1, 2, 3, 0], 0x400) ∧
    after ((withRegs [(0, 1)] { State.reset with cfg := { defaultConfig with loadStoreIncrementsI := true } }).setI 0x400)
      0xF255 State.I = some 0x403 := by decide

/-- M17. -/
theorem test_ldIVx_out_of_bounds : after (withRegs [(0, 9)] (State.reset.setI 0xFF1)) 0xFF55
    (fun t => (t.fault, t.byteAt 0xFF1)) =
      some (some ⟨.addressOutOfBounds, 0x200, some 0xFF55, some 0x1000⟩, 0) := by decide

/-- M18. -/
theorem test_ldVxI : after (withRegs [(3, 0x33)] (withBytes 0x300 [2, 5, 4, 9] (State.reset.setI 0x300))) 0xF265
    (fun t => (t.v 0, t.v 1, t.v 2, t.v 3)) = some (2, 5, 4, 0x33) := by decide

/-- M20. -/
theorem test_ldVxI_font : after State.reset 0xF065 (fun t => t.v 0) = some 0xF0 := by decide

/-! ### Display -/

/-- D11. -/
theorem test_cls : after (withRegs [(15, 0x42)] (withPixel 9 9 State.reset)) 0x00E0
    (fun t => (decide (t.disp = Display.clear), t.v 15)) = some (true, 0x42) := by decide

/-- D3: XOR, clipping at the right edge, and the collision. -/
theorem test_drw_collides_and_clips :
    after (withRegs [(0, 62), (15, 7)] (withPixel 63 0 (withBytes 0x300 [0xFF] (State.reset.setI 0x300)))) 0xD011
      (fun t => (t.disp.pixel 62 0, t.disp.pixel 63 0, t.disp.pixel 0 0, t.disp.pixel 0 1, t.v 15)) =
      some (true, false, false, false, 1) := by decide

/-- D10: VF is read as the origin before it is written as the flag. -/
theorem test_drw_origin_in_vf :
    after (withRegs [(15, 5)] (withBytes 0x300 [0x80] (State.reset.setI 0x300))) 0xDF11
      (fun t => (t.disp.pixel 5 0, t.disp.pixel 4 0, t.v 15)) = some (true, false, 0) := by decide

/-! ### Ports -/

/-- L2, L6. -/
theorem test_load_program_sizes :
    ((State.reset.loadProgram []).1, (State.reset.loadProgram []).2.loaded) = (.ok, true) ∧
    (State.reset.loadProgram (List.replicate 3585 0)).1 = .romTooLarge := by
  refine ⟨by decide, ?_⟩
  simp only [State.loadProgram, List.length_replicate]
  rfl

/-- L3, L4. -/
theorem test_load_program_refused :
    ((State.reset.loadProgram [1]).2.loadProgram [2, 3]).1 = .loadRefused ∧
    (({ State.reset with started := true } : State).loadProgram [2, 3]).1 = .loadRefused := by decide

/-- L7, and the host keeps the keys (R46). -/
theorem test_port_reset :
    (withKeys [3] (withRegs [(1, 2)] { atPc 0x777 with dt := 9, started := true, loaded := true })).portReset =
      withKeys [3] State.reset := by decide

theorem test_reset_table : State.reset.pc = 0x200 ∧ State.reset.byteAt 0 = 0xF0 ∧ State.reset.byteAt 0x4F = 0x80 ∧
    State.reset.byteAt 0x50 = 0 ∧ State.reset.byteAt 0xFFF = 0 ∧ State.reset.key[15] = false := by decide

theorem test_fault_codes : FaultKind.code .unimplementedInstruction = 1 ∧ FaultKind.code .stackOverflow = 2 ∧
    FaultKind.code .stackUnderflow = 3 ∧ FaultKind.code .addressOutOfBounds = 4 ∧ State.reset.faultCode = 0 ∧
    LoadResult.code .romTooLarge = 1 ∧ LoadResult.code .loadRefused = 2 := by decide

theorem test_memory_canonical :
    Memory.wf defaultFont State.reset.mem ∧
    Memory.write defaultFont (Memory.write defaultFont [] 0x300 5) 0x300 0 = [] ∧
    Memory.write defaultFont [] 0 0xF0 = [] := by decide

/-! ### Witnesses: the hypotheses of each obligation can be met -/

theorem witness_ResetTable : ∃ cfg s, s = State.initial cfg := ⟨defaultConfig, _, rfl⟩

theorem witness_EntryPointIsProgramStart :
    (∃ b : List Byte, b.length ≤ 3584 ∧ b.length = 0) ∧ (∃ b : List Byte, b.length ≤ 3584 ∧ b.length = 3584) :=
  ⟨⟨[], by decide⟩, ⟨List.replicate 3584 0, by rw [List.length_replicate]; decide⟩⟩

theorem witness_DecodeOfEncode : Instr.wellFormed defaultConfig (.call 0xFFF) = true ∧
    Instr.wellFormed { defaultConfig with canonicalExtras := true } (.jpV0 0xFFF) = true := by decide

theorem witness_EncodeOfDecode : decode defaultConfig.canonicalExtras 0x8F2E = .instr (.shl 15 2) := by decide

theorem witness_DecodeRejectsExactlyUnmatchedWords :
    decode defaultConfig.canonicalExtras 0x8120 = .unimplementedInstruction 0x8120 ∧
    Instr.wellFormed defaultConfig .ret = true := by decide

theorem witness_OpcodeRowsDisjoint :
    matchesRow (opcodeRow (.jp 0)) 0x1234 = true ∧ matchesRow (opcodeRow (.jp 0x234)) 0x1234 = true := by decide

/-- One word for each class of IllegalEncodingsRejected. -/
theorem witness_IllegalEncodingsRejected :
    (classOf 0x00EF = 0x0 ∧ (0x00EF : Word) ≠ 0x00E0 ∧ (0x00EF : Word) ≠ 0x00EE) ∧
    (classOf 0x5001 = 0x5 ∧ fieldN 0x5001 ≠ 0) ∧ (classOf 0x900F = 0x9 ∧ fieldN 0x900F ≠ 0) ∧
    (classOf 0x8008 = 0x8 ∧ (fieldN 0x8008).val ∈ [0x8, 0x9, 0xA, 0xB, 0xC, 0xD, 0xF]) ∧
    (classOf 0xE09F = 0xE ∧ (fieldKK 0xE09F).toNat ∉ [0x9E, 0xA1]) ∧
    (classOf 0xF066 = 0xF ∧ (fieldKK 0xF066).toNat ∉ [0x07, 0x0A, 0x15, 0x18, 0x1E, 0x29, 0x33, 0x55, 0x65]) ∧
    classOf 0xB000 = 0xB ∧ (classOf 0x8007 = 0x8 ∧ (fieldN 0x8007).val ∈ [0x0, 0x7]) ∧
    (classOf 0xF01E = 0xF ∧ (fieldKK 0xF01E).toNat ∈ [0x0A, 0x18, 0x1E]) := by decide

/-- Both ends of the addresses a fetch can be made at. -/
theorem witness_StepRunsDecodedInstruction :
    (∃ s : State, s.fault = none ∧ s.fetchable ∧ s.pc = 0x200 ∧
      decode s.cfg.canonicalExtras s.opcodeAtPc = .instr (.addReg 0 1)) ∧
    (∃ s : State, s.fault = none ∧ s.fetchable ∧ s.pc = 0xFFE ∧
      decode s.cfg.canonicalExtras s.opcodeAtPc = .instr .cls) :=
  ⟨⟨State.reset.placeFetchWord 0x8014, by decide, ⟨by decide, by decide⟩, by decide, by decide⟩,
    ⟨(atPc 0xFFE).placeFetchWord 0x00E0, by decide, ⟨by decide, by decide⟩, by decide, by decide⟩⟩

/-- Each case of FetchFaultsAsListed: reserved, the word cut by the end, and past the end. -/
theorem witness_FetchFaultsAsListed :
    ((atPc 0x1FF).fault = none ∧ ¬ (atPc 0x1FF).fetchable) ∧ ((atPc 0xFFF).fault = none ∧ ¬ (atPc 0xFFF).fetchable) ∧
    ((atPc 0x1000).fault = none ∧ ¬ (atPc 0x1000).fetchable) :=
  ⟨⟨rfl, fun h => absurd (h.1 rfl) (by decide)⟩, ⟨rfl, fun h => absurd h.2 (by decide)⟩,
    ⟨rfl, fun h => absurd h.2 (by decide)⟩⟩

theorem witness_UndecodableWordFaults :
    State.reset.fault = none ∧ State.reset.fetchable ∧
    decode State.reset.cfg.canonicalExtras State.reset.opcodeAtPc = .unimplementedInstruction 0 :=
  ⟨rfl, ⟨by decide, by decide⟩, by decide⟩

/-- A decode fault and a fetch fault. -/
theorem witness_FaultsArePrecise :
    (∃ t r, State.reset.fault = none ∧ executeCycle 0 State.reset = .next t ∧ t.fault = some r ∧ r.opcode = some 0) ∧
    (∃ t r, (atPc 0xFFF).fault = none ∧ executeCycle 0 (atPc 0xFFF) = .next t ∧ t.fault = some r ∧ r.opcode = none) :=
  ⟨⟨_, _, rfl, rfl, rfl, by decide⟩, ⟨_, _, rfl, rfl, rfl, by decide⟩⟩

theorem witness_HaltLastsUntilReset : ∃ (s : State) (r : FaultRecord), s.fault = some r :=
  ⟨{ State.reset with fault := some ⟨.stackUnderflow, 0x200, some 0x00EE, none⟩ }, _, rfl⟩

theorem witness_RunningBlockAlwaysSteps :
    State.reset.fault = none ∧ ∃ (s : State) (f : Fault), step s = .fault f :=
  ⟨rfl, { State.reset with fault := some ⟨.stackUnderflow, 0x200, some 0x00EE, none⟩ }, _, rfl⟩

/-- The third clause, and the fourth with dt at 0, 1 and 255. -/
theorem witness_DelayTimerCountsCycles :
    (∃ t, (∀ x, Instr.ret ≠ .ldDtVx x) ∧ exec .ret State.reset = .next t) ∧
    (∀ b ∈ [(0 : Byte), 1, 255], ∃ t, (({ State.reset with dt := b } : State).placeFetchWord 0x6000).fault = none ∧
      executeCycle 0 (({ State.reset with dt := b } : State).placeFetchWord 0x6000) = .next t ∧ t.fault = none) := by
  refine ⟨⟨_, by simp, rfl⟩, ?_⟩
  intro b hb
  simp only [List.mem_cons, List.not_mem_nil, or_false] at hb
  rcases hb with rfl | rfl | rfl <;> exact ⟨_, rfl, rfl, rfl⟩

/-- A state with the invariant of R43 and one call outstanding, its slot at the largest address. -/
def calledState : State := withStack 1 [(0, 0xFFE)] State.reset

theorem calledState_inv : Inv calledState :=
  ⟨by decide, by decide, by decide, fun _ h => nomatch h⟩

theorem witness_RetPopsAndAddsTwo :
    State.reset.sp.val = 0 ∧ (∃ j : Fin 16, calledState.sp.val = j.val + 1 ∧ Inv calledState) ∧
    (∃ j : Fin 16, (withStack 16 [] State.reset).sp.val = j.val + 1) ∧
    (∃ t, exec .ret calledState = .next t ∧ t.pc = 0x1000) ∧ (withStack 15 [] State.reset).sp.val < 16 :=
  ⟨rfl, ⟨0, rfl, calledState_inv⟩, ⟨15, rfl⟩, ⟨_, rfl, by decide⟩, by decide⟩

/-- A jump to a bad target, and a jump to itself. -/
theorem witness_JumpSetsPc :
    (∃ t, exec (.jp 0xFFF) State.reset = .next t ∧ t.fault = none ∧ ¬ t.fetchable) ∧
    ((State.reset.placeFetchWord 0x1200).fault = none ∧ (State.reset.placeFetchWord 0x1200).fetchable ∧
      decode (State.reset.placeFetchWord 0x1200).cfg.canonicalExtras (State.reset.placeFetchWord 0x1200).opcodeAtPc =
        .instr (.jp 0x200) ∧ (State.reset.placeFetchWord 0x1200).pc.toNat = (0x200 : Addr).toNat) :=
  ⟨⟨_, rfl, rfl, fun h => absurd h.2 (by decide)⟩, by decide, ⟨by decide, by decide⟩, by decide, by decide⟩

/-- Full and last slot, and the program of vector 3.6. -/
theorem witness_CallPushesItsAddress :
    (withStack 16 [] State.reset).sp.val = 16 ∧ (withStack 15 [] State.reset).sp.val < 16 ∧
    ((State.reset.placeFetchWord 0x2200).fault = none ∧ (State.reset.placeFetchWord 0x2200).fetchable ∧
      decode (State.reset.placeFetchWord 0x2200).cfg.canonicalExtras (State.reset.placeFetchWord 0x2200).opcodeAtPc =
        .instr (.call 0x200) ∧ (State.reset.placeFetchWord 0x2200).pc.toNat = (0x200 : Addr).toNat ∧
      (State.reset.placeFetchWord 0x2200).sp.val = 0) ∧ (List.replicate 16 (0 : Byte)).length ≤ 16 :=
  ⟨by decide, by decide, ⟨by decide, ⟨by decide, by decide⟩, by decide, by decide, by decide⟩, by decide⟩

theorem witness_KeySkips : (0 : Fin 16).val = (State.reset.v 2).toNat % 16 ∧
    (15 : Fin 16).val = ((withRegs [(2, 0xFF)] State.reset).v 2).toNat % 16 := by decide

theorem witness_WaitForKey :
    (∀ k : Fin 16, State.reset.key[k.val] = false) ∧
    ((withKeys [0, 3] State.reset).key[(0 : Fin 16).val] = true ∧
      ∀ j : Fin 16, j < 0 → (withKeys [0, 3] State.reset).key[j.val] = false) ∧
    ((withKeys [15] State.reset).key[(15 : Fin 16).val] = true ∧
      ∀ j : Fin 16, j < 15 → (withKeys [15] State.reset).key[j.val] = false) := by decide

theorem witness_LogicOperations :
    ¬ (State.reset.cfg.logicResetsVF = true ∧ (0 : Reg) = VF) ∧ (7 : Nat) < 8 ∧ State.reset.cfg.logicResetsVF = false ∧
    ({ defaultConfig with logicResetsVF := true } : Config).logicResetsVF = true := by decide

theorem witness_AddAndSubtract : (0 : Reg) ≠ VF := by decide

theorem witness_Shifts :
    (0x81 : Byte) = (if (withRegs [(3, 0x81)] State.reset).cfg.shiftUsesVy = true then 0
      else (withRegs [(3, 0x81)] State.reset).v 3) ∧ (3 : Reg) ≠ VF := by decide

theorem witness_RandomByteUnderMask :
    (State.reset.placeFetchWord 0xC30F).fault = none ∧ (State.reset.placeFetchWord 0xC30F).fetchable ∧
    decode (State.reset.placeFetchWord 0xC30F).cfg.canonicalExtras (State.reset.placeFetchWord 0xC30F).opcodeAtPc =
      .instr (.rnd 3 0x0F) :=
  ⟨by decide, ⟨by decide, by decide⟩, by decide⟩

theorem witness_SoundWriteStrobe :
    ∃ t, executeCycle 0 State.reset = .next t ∧
      ∀ x, decode State.reset.cfg.canonicalExtras State.reset.opcodeAtPc ≠ .instr (.ldStVx x) :=
  ⟨_, rfl, by decide⟩

/-- The highest I at which a transfer of the given length is in range. -/
theorem witness_block_transfers :
    Memory.wf State.reset.cfg.font State.reset.mem ∧ (State.reset.setI 0xFFD).I.toNat + 2 ≤ 0xFFF ∧
    (State.reset.setI 0xFFF).I.toNat + (0 : Reg).val ≤ 0xFFF ∧
    (State.reset.setI 0xFF0).I.toNat + (15 : Reg).val ≤ 0xFFF := by decide

theorem witness_DumpThenLoadRestores :
    ∃ t u : State, Memory.wf (State.reset.setI 0xFF0).cfg.font (State.reset.setI 0xFF0).mem ∧
      (State.reset.setI 0xFF0).I.toNat + (15 : Reg).val ≤ 0xFFF ∧
      exec (.ldIVx 15) (State.reset.setI 0xFF0) = .next t ∧ u.mem = t.mem ∧ u.cfg = t.cfg ∧
      u.I = (State.reset.setI 0xFF0).I :=
  ⟨_, _, by decide, by decide, rfl, rfl, rfl, rfl⟩

/-- V1 V2 … stored over the word that follows the store itself. -/
theorem witness_StoredWordIsFetched :
    ∃ t, Memory.wf (State.reset.setI 0x201).cfg.font (State.reset.setI 0x201).mem ∧
      (State.reset.setI 0x201).I.toNat + (2 : Reg).val ≤ 0xFFF ∧
      exec (.ldIVx 2) (State.reset.setI 0x201) = .next t ∧
      t.pc.toNat = (State.reset.setI 0x201).I.toNat + (1 : Reg).val ∧ (1 : Reg) < 2 ∧ (2 : Fin 16).val = (1 : Reg).val + 1 :=
  ⟨_, by decide, by decide, rfl, by decide, by decide, by decide⟩

/-- The lowest I at which each access is out of range, and one where its first byte is. -/
theorem witness_OutOfRangeAccessFaults :
    (0 < bytesAccessed (.ldBVx 4) ∧ 0xFFF < (State.reset.setI 0xFFE).I.toNat + (bytesAccessed (.ldBVx 4) - 1)) ∧
    (0 < bytesAccessed (.drw 0 0 1) ∧ 0xFFF < (State.reset.setI 0x1000).I.toNat + (bytesAccessed (.drw 0 0 1) - 1)) ∧
    (0 < bytesAccessed (.ldIVx 15) ∧ 0xFFF < (State.reset.setI 0xFF1).I.toNat + (bytesAccessed (.ldIVx 15) - 1)) ∧
    (0 < bytesAccessed (.ldVxI 0) ∧ 0xFFF < (State.reset.setI 0xFFFF).I.toNat + (bytesAccessed (.ldVxI 0) - 1)) := by
  decide

/-- n = 0 with I out of memory, and fifteen rows that end at 0xFFF. -/
theorem witness_DrawXorsSprite :
    ((0 : Rows) = 0 ∨ (State.reset.setI 0xFFFF).I.toNat + ((0 : Rows).val - 1) ≤ 0xFFF) ∧
    ((15 : Rows) = 0 ∨ (State.reset.setI 0xFF1).I.toNat + ((15 : Rows).val - 1) ≤ 0xFFF) := by decide

theorem witness_DrawTwiceRestoresDisplay :
    ∃ t, ((5 : Rows) = 0 ∨ State.reset.I.toNat + ((5 : Rows).val - 1) ≤ 0xFFF) ∧
      exec (.drw 0 1 5) State.reset = .next t ∧ t.v 0 = State.reset.v 0 ∧ t.v 1 = State.reset.v 1 ∧ t.v VF = 0 :=
  ⟨_, by decide, rfl, by decide, by decide, by decide⟩

theorem witness_OverflowAndClippingNeverRaise :
    (∃ t, State.reset.fault = none ∧ exec (.addImm 0 1) State.reset = .next t) ∧
    (∃ t, State.reset.fault = none ∧ exec (.addReg 0 1) State.reset = .next t) ∧
    (∃ t, State.reset.fault = none ∧ exec (.sub 0 1) State.reset = .next t) ∧
    (∃ t, State.reset.fault = none ∧ exec (.subn 0 1) State.reset = .next t) ∧
    (∃ t, State.reset.fault = none ∧ exec (.shr 0 1) State.reset = .next t) ∧
    (∃ t, State.reset.fault = none ∧ exec (.shl 0 1) State.reset = .next t) ∧
    (∃ t, State.reset.fault = none ∧ exec (.drw 0 1 15) (State.reset.setI 0xFF1) = .next t ∧
      ((15 : Rows) = 0 ∨ (State.reset.setI 0xFF1).I.toNat + ((15 : Rows).val - 1) ≤ 0xFFF)) :=
  ⟨⟨_, rfl, rfl⟩, ⟨_, rfl, rfl⟩, ⟨_, rfl, rfl⟩, ⟨_, rfl, rfl⟩, ⟨_, rfl, rfl⟩, ⟨_, rfl, rfl⟩, ⟨_, rfl, rfl, by decide⟩⟩

theorem witness_GeneralRegisterFrame :
    ∃ t, exec (.addReg 0 1) State.reset = .next t ∧ mayWriteReg State.reset.cfg (.addReg 0 1) 1 = false :=
  ⟨_, rfl, by decide⟩

theorem witness_IndexRegisterFrame :
    ∃ t, exec (.ldIVx 3) State.reset = .next t ∧ mayWriteI State.reset.cfg (.ldIVx 3) = false := ⟨_, rfl, by decide⟩

theorem witness_StackWrittenByCallReadByRet :
    (∃ t, (∀ nnn, Instr.ret ≠ .call nnn) ∧ exec .ret calledState = .next t) ∧
    (∃ t, (withStack 15 [] State.reset).sp.val < 16 ∧ exec (.call 0x300) (withStack 15 [] State.reset) = .next t) ∧
    (∃ t, Instr.cls ≠ .ret ∧ exec .cls State.reset = .next t) ∧
    (∃ (t u : State) (other : Vector Word 16),
      (∀ j : Fin 16, j.val + 1 = calledState.sp.val → other[j.val] = calledState.stack[j.val]) ∧
      exec .ret calledState = .next t ∧ exec .ret { calledState with stack := other } = .next u) :=
  ⟨⟨_, by simp, rfl⟩, ⟨_, by decide, rfl⟩, ⟨_, by simp, rfl⟩,
    ⟨_, _, #v[0xFFE, 1, 2, 3, 4, 5, 6, 7, 8, 9, 10, 11, 12, 13, 14, 15], by decide, rfl, rfl⟩⟩

/-- Each clause of StackPointerDiscipline: another instruction, CALL at 15 and 16, RET at 1 and 0. -/
theorem witness_StackPointerDiscipline :
    (∃ t, exec .cls State.reset = .next t) ∧
    (∃ t, exec (.call 0x300) (withStack 15 [] State.reset) = .next t ∧ (withStack 15 [] State.reset).sp.val < 16) ∧
    (∃ t, exec (.call 0x300) (withStack 16 [] State.reset) = .next t ∧ (withStack 16 [] State.reset).sp.val = 16) ∧
    (∃ t, exec .ret calledState = .next t ∧ 0 < calledState.sp.val) ∧
    (∃ t, exec .ret State.reset = .next t ∧ State.reset.sp.val = 0) ∧
    (∀ nnn, Instr.cls ≠ .call nnn) ∧ Instr.cls ≠ .ret :=
  ⟨⟨_, rfl⟩, ⟨_, rfl, by decide⟩, ⟨_, rfl, by decide⟩, ⟨_, rfl, by decide⟩, ⟨_, rfl, by decide⟩, by simp, by simp⟩

theorem witness_StackFaultsHaveOneCause :
    (∃ t, State.reset.fault = none ∧ exec .ret State.reset = .next t) ∧
    (∃ t r, ((withStack 16 [] State.reset).placeFetchWord 0x2300).fault = none ∧
      executeCycle 0 ((withStack 16 [] State.reset).placeFetchWord 0x2300) = .next t ∧ t.fault = some r ∧
      r.kind = .stackOverflow) ∧
    (∃ t r, (State.reset.placeFetchWord 0x00EE).fault = none ∧
      executeCycle 0 (State.reset.placeFetchWord 0x00EE) = .next t ∧ t.fault = some r ∧ r.kind = .stackUnderflow) :=
  ⟨⟨_, rfl, rfl⟩, ⟨_, _, rfl, rfl, rfl, rfl⟩, ⟨_, _, rfl, rfl, rfl, rfl⟩⟩

theorem witness_ExecuteFaultCauses :
    (∃ t, State.reset.fault = none ∧ exec .cls State.reset = .next t ∧ t.fault = none) ∧
    (∃ t r, State.reset.fault = none ∧ exec .ret State.reset = .next t ∧ t.fault = some r) :=
  ⟨⟨_, rfl, rfl, rfl⟩, ⟨_, _, rfl, rfl, rfl⟩⟩

/-- An instruction that stores nothing, and one that stores, with an address on each side of its bytes. -/
theorem witness_MemoryFrame :
    (∃ t, exec .cls State.reset = .next t ∧ bytesStored .cls = 0) ∧
    (∃ t, exec (.ldBVx 0) (State.reset.setI 0x300) = .next t ∧
      Memory.wf (State.reset.setI 0x300).cfg.font (State.reset.setI 0x300).mem ∧
      0x2FF < (State.reset.setI 0x300).I.toNat ∧ (State.reset.setI 0x300).I.toNat + bytesStored (.ldBVx 0) ≤ 0x303) :=
  ⟨⟨_, rfl, rfl⟩, ⟨_, rfl, by decide⟩⟩

theorem witness_MemoryChangedOnlyByStoresAndLoad :
    (∃ t, executeCycle 0 ((State.reset.setI 0x300).placeFetchWord 0xF055) = .next t) ∧
    (∃ t, executeCycle 0 ((withRegs [(0, 9)] (State.reset.setI 0x300)).placeFetchWord 0xF055) = .next t ∧
      t.mem ≠ ((withRegs [(0, 9)] (State.reset.setI 0x300)).placeFetchWord 0xF055).mem) ∧
    (State.reset.loadProgram [0x12, 0x00]).2.mem ≠ State.reset.mem :=
  ⟨⟨_, rfl⟩, ⟨_, rfl, by decide⟩, by decide⟩

theorem witness_MemoryReadAfterWrite :
    Memory.wf State.reset.cfg.font State.reset.mem ∧ (0 : Nat) ≤ 0xFFF ∧ (0xFFF : Nat) ≤ 0xFFF ∧ (0xFFE : Nat) ≠ 0xFFF := by
  decide

theorem witness_DisplayWrittenByClsAndDrw :
    (∃ t, Instr.ret ≠ .cls ∧ (∀ x y n, Instr.ret ≠ .drw x y n) ∧ exec .ret State.reset = .next t) ∧
    (63 : Nat) < 64 ∧ (31 : Nat) < 32 := ⟨⟨_, by simp, by simp, rfl⟩, by decide, by decide⟩

theorem witness_KeysOnlyReadByKeypadInstructions :
    (∃ t, readsKey (.ldI 0x300) = false ∧ exec (.ldI 0x300) State.reset = .next t) ∧
    (∃ t, executeCycle 0 State.reset = .next t) := ⟨⟨_, rfl, rfl⟩, ⟨_, rfl⟩⟩

theorem witness_StatusAndPortFrame :
    ∃ t, (∀ x, Instr.cls ≠ .ldStVx x) ∧ (∀ x kk, Instr.cls ≠ .rnd x kk) ∧ exec .cls State.reset = .next t :=
  ⟨_, by simp, by simp, rfl⟩

/-- Each case of LoadProgramPort, the longest program and the shortest that is too large among them. -/
theorem witness_LoadProgramPort :
    (∃ s : State, s.started = true ∨ s.loaded = true) ∧
    (∃ b : List Byte, State.reset.started = false ∧ State.reset.loaded = false ∧ 3584 < b.length) ∧
    (∃ b : List Byte, State.reset.started = false ∧ State.reset.loaded = false ∧ b.length = 3584 ∧ b.length ≤ 3584 ∧
      Memory.wf State.reset.cfg.font State.reset.mem) :=
  ⟨⟨{ State.reset with started := true }, .inl rfl⟩, ⟨List.replicate 3585 0, rfl, rfl, by rw [List.length_replicate]; decide⟩,
    ⟨List.replicate 3584 0, rfl, rfl, by rw [List.length_replicate], by rw [List.length_replicate], by decide⟩⟩

theorem witness_StepKeepsInvariant : ∃ t, Inv calledState ∧ step calledState = .next t := ⟨_, calledState_inv, rfl⟩

/-- A state reached by a load, a change of the keys and a cycle. -/
theorem witness_ReachableStatesSatisfyInvariant :
    ∃ t, t.pc = 0x234 ∧ t.key[3] = true ∧ Reachable defaultConfig t :=
  ⟨_, by decide, by decide,
    Reachable.cycle 0x5A
      (Reachable.setKeys (withKeys [3] State.reset).key (Reachable.load [0x12, 0x34] Reachable.initial)) rfl⟩

end Sys2Proof.Tests
end

section
/-! PROOFS. The state's parts and who touches them (spec/10_state.md): the call stack and sp (R28, R29), the display
(R38, R51) and the keys (R39). What an instruction does not write is `exec_frame`; what it does not read is
`exec_mapHidden`, a commuting square for a change of the parts that only a few instructions read. -/

namespace Sys2Proof.Machine

/-! ### RET and CALL, case by case -/

theorem exec_ret_empty (s : State) (h : s.sp.val = 0) :
    exec .ret s = .next (s.raise .stackUnderflow (some (encode .ret)) none) := by
  rcases execRet_cases s with ⟨_, hs⟩ | ⟨hpos, _⟩
  · exact hs
  · omega

theorem exec_ret_occupied (s : State) (h : 0 < s.sp.val) :
    exec .ret s = .next { s with sp := ⟨s.sp.val - 1, by omega⟩, pc := s.stack[s.sp.val - 1] + 2 } := by
  rcases execRet_cases s with ⟨h0, _⟩ | ⟨_, hs⟩
  · omega
  · exact hs

theorem exec_call_full (nnn : Addr) (s : State) (h : s.sp.val = 16) :
    exec (.call nnn) s = .next (s.raise .stackOverflow (some (encode (.call nnn))) none) := by
  rcases execCall_cases nnn s with ⟨_, hs⟩ | ⟨hroom, _⟩
  · exact hs
  · omega

theorem exec_call_room (nnn : Addr) (s : State) (h : s.sp.val < 16) :
    exec (.call nnn) s =
      .next { s with stack := s.stack.set s.sp.val s.pc, sp := ⟨s.sp.val + 1, by omega⟩, pc := zext16 nnn } := by
  rcases execCall_cases nnn s with ⟨hfull, _⟩ | ⟨_, hs⟩
  · omega
  · exact hs

/-! ### What exec keeps -/

theorem exec_stack_of_not_call (i : Instr) (s t : State) (hi : ∀ nnn, i ≠ .call nnn) (h : exec i s = .next t) :
    t.stack = s.stack :=
  exec_frame (·.stack) i s t h (fun _ _ _ => rfl) (fun _ _ => rfl) (fun _ _ _ => rfl) (fun _ _ _ => rfl)
    (fun _ _ _ => rfl) (fun _ _ _ ⟨n, e⟩ => absurd e (hi n)) (fun _ _ _ => rfl) (fun _ _ _ => rfl) (fun _ _ _ => rfl)
    (fun _ _ _ => rfl)

theorem exec_sp_of_not_call_ret (i : Instr) (s t : State) (hi : ∀ nnn, i ≠ .call nnn) (hr : i ≠ .ret)
    (h : exec i s = .next t) : t.sp = s.sp :=
  exec_frame (·.sp) i s t h (fun _ _ _ => rfl) (fun _ _ => rfl) (fun _ _ _ => rfl) (fun _ _ _ => rfl)
    (fun _ _ _ => rfl) (fun _ _ _ ⟨n, e⟩ => absurd e (hi n)) (fun _ _ e => absurd e hr) (fun _ _ _ => rfl)
    (fun _ _ _ => rfl) (fun _ _ _ => rfl)

theorem exec_disp_of_not_cls_drw (i : Instr) (s t : State) (hc : i ≠ .cls) (hd : ∀ x y n, i ≠ .drw x y n)
    (h : exec i s = .next t) : t.disp = s.disp :=
  exec_frame (·.disp) i s t h (fun _ _ _ => rfl) (fun _ _ => rfl) (fun _ _ _ => rfl) (fun _ _ _ => rfl)
    (fun _ _ _ => rfl) (fun _ _ _ _ => rfl) (fun _ _ _ => rfl)
    (fun _ _ e => e.elim (absurd · hc) fun ⟨x, y, n, e⟩ => absurd e (hd x y n)) (fun _ _ _ => rfl) (fun _ _ _ => rfl)

theorem exec_key (i : Instr) (s t : State) (h : exec i s = .next t) : t.key = s.key :=
  exec_frame (·.key) i s t h (fun _ _ _ => rfl) (fun _ _ => rfl) (fun _ _ _ => rfl) (fun _ _ _ => rfl)
    (fun _ _ _ => rfl) (fun _ _ _ _ => rfl) (fun _ _ _ => rfl) (fun _ _ _ => rfl) (fun _ _ _ => rfl)
    (fun _ _ _ => rfl)

theorem executeCycle_key (rnd : Byte) (s t : State) (h : executeCycle rnd s = .next t) : t.key = s.key := by
  cases hf : s.fault with
  | some r => rw [executeCycle_halted rnd s r hf] at h; cases h
  | none =>
    rw [executeCycle_running rnd s hf] at h
    rcases (s.beginCycle rnd).cycle_cases with ⟨_, _, hc⟩ | ⟨_, _, _, hc⟩ | ⟨_, i, u, _, hu, hc⟩ <;>
      rw [hc] at h <;> cases h
    · rfl
    · rfl
    · rw [State.tick_key, exec_key i _ u hu, State.beginCycle_key]

/-! ### What exec does not read -/

/-- A change of the parts of the state that only a few instructions read: the call stack and sp (CALL and RET), the keys
(the keypad instructions) and the random byte (RND). A part that is not named stays. -/
structure HiddenMap where
  stack : Vector Word 16 → Vector Word 16 := id
  sp : Fin 17 → Fin 17 := id
  key : Vector Bool 16 → Vector Bool 16 := id
  rnd : Byte → Byte := id

/-- The state with its hidden parts changed. -/
def State.mapHidden (s : State) (m : HiddenMap) : State :=
  { s with stack := m.stack s.stack, sp := m.sp s.sp, key := m.key s.key, rnd := m.rnd s.rnd }

/-- `m` leaves alone what `i` reads. -/
structure HiddenMap.FixesReads (m : HiddenMap) (i : Instr) : Prop where
  call : (∃ nnn, i = .call nnn) → m.stack = id ∧ m.sp = id
  ret : i = .ret → m.stack = id ∧ m.sp = id
  key : readsKey i = true → m.key = id
  rnd : (∃ x kk, i = .rnd x kk) → m.rnd = id

theorem State.setLogic_mapHidden (s : State) (m : HiddenMap) (x : Reg) (b : Byte) :
    (s.mapHidden m).setLogic x b = (s.setLogic x b).mapHidden m := by
  cases hr : s.cfg.logicResetsVF <;> simp [State.setLogic, State.mapHidden, hr, State.setV]

theorem State.writeBytes_mapHidden (s : State) (m : HiddenMap) (a : Nat) (bs : List Byte) :
    (s.mapHidden m).writeBytes a bs = (s.writeBytes a bs).mapHidden m := by
  induction bs generalizing s a with
  | nil => rfl
  | cons b bs ih => exact ih (s.putByte a b) (a + 1)

theorem accessAtI_mapHidden (m : HiddenMap) (i : Instr) (n : Nat) (s u t : State) (h : accessAtI i n s u = .next t) :
    accessAtI i n (s.mapHidden m) (u.mapHidden m) = .next (t.mapHidden m) := by
  rcases accessAtI_cases i n s u with ⟨hin, hs⟩ | ⟨hn, hout, hs⟩ <;> rw [hs] at h <;> cases h
  · exact accessAtI_inBounds i n _ _ hin
  · exact accessAtI_outOfBounds i n _ _ hn hout

/-- An instruction commutes with a change of the parts it does not read: the same next state, changed likewise. -/
theorem exec_mapHidden (m : HiddenMap) (i : Instr) (s t : State) (hm : m.FixesReads i) (h : exec i s = .next t) :
    exec i (s.mapHidden m) = .next (t.mapHidden m) := by
  obtain ⟨stack, sp, key, rnd⟩ := m
  obtain ⟨hcall, hret, hkey, hrnd⟩ := hm
  cases i
  case ret =>
    obtain ⟨rfl, rfl⟩ := hret rfl
    rcases execRet_cases s with ⟨hempty, hs⟩ | ⟨hpos, hs⟩ <;> cases h.symm.trans hs
    · exact exec_ret_empty (s.mapHidden ⟨id, id, key, rnd⟩) hempty
    · exact exec_ret_occupied (s.mapHidden ⟨id, id, key, rnd⟩) hpos
  case call nnn =>
    obtain ⟨rfl, rfl⟩ := hcall ⟨nnn, rfl⟩
    rcases execCall_cases nnn s with ⟨hfull, hs⟩ | ⟨hroom, hs⟩ <;> cases h.symm.trans hs
    · exact exec_call_full nnn (s.mapHidden ⟨id, id, key, rnd⟩) hfull
    · exact exec_call_room nnn (s.mapHidden ⟨id, id, key, rnd⟩) hroom
  case rnd x kk => obtain rfl := hrnd ⟨x, kk, rfl⟩; cases h; rfl
  case skp x => obtain rfl := hkey rfl; cases h; rfl
  case sknp x => obtain rfl := hkey rfl; cases h; rfl
  case ldVxK x =>
    obtain rfl := hkey rfl
    have hfirst : (s.mapHidden ⟨stack, sp, id, rnd⟩).firstKey = s.firstKey := rfl
    simp only [exec, execLdVxK, hfirst] at h ⊢
    split at h <;> cases h <;> rfl
  case drw x y n => exact accessAtI_mapHidden ⟨stack, sp, key, rnd⟩ _ _ _ _ _ h
  case ldVxI x => exact accessAtI_mapHidden ⟨stack, sp, key, rnd⟩ _ _ _ _ _ h
  case ldBVx x =>
    simp only [exec, execLdBVx, State.writeBytes_mapHidden]
    exact accessAtI_mapHidden ⟨stack, sp, key, rnd⟩ _ _ _ _ _ h
  case ldIVx x =>
    simp only [exec, execLdIVx, State.writeBytes_mapHidden]
    exact accessAtI_mapHidden ⟨stack, sp, key, rnd⟩ _ _ _ _ _ h
  case orReg | andReg | xorReg =>
    all_goals
      cases h
      exact congrArg (fun u : State => (.next u.advance : Result)) (s.setLogic_mapHidden ⟨stack, sp, key, rnd⟩ _ _)
  all_goals cases h; rfl

/-! ### The call stack (10_state.md R28, R29) -/

theorem call_room_stack (nnn : Addr) (s t : State) (j : Fin 16) (hroom : s.sp.val < 16)
    (h : exec (.call nnn) s = .next t) : t.stack[j.val] = if j.val = s.sp.val then s.pc else s.stack[j.val] := by
  cases h.symm.trans (exec_call_room nnn s hroom)
  simp only [Vector.getElem_set, eq_comm]

theorem exec_other_stack (i : Instr) (s t : State) (other : Vector Word 16) (hi : i ≠ .ret) (h : exec i s = .next t) :
    ∃ u, exec i { s with stack := other } = .next u ∧ { u with stack := t.stack } = t := by
  by_cases hc : ∃ nnn, i = .call nnn
  · obtain ⟨nnn, rfl⟩ := hc
    rcases execCall_cases nnn s with ⟨hfull, hs⟩ | ⟨hroom, hs⟩ <;> cases h.symm.trans hs
    · exact ⟨_, exec_call_full nnn { s with stack := other } hfull, rfl⟩
    · exact ⟨_, exec_call_room nnn { s with stack := other } hroom, rfl⟩
  · exact ⟨_, exec_mapHidden { stack := fun _ => other } i s t
      ⟨fun e => absurd e hc, fun e => absurd e hi, fun _ => rfl, fun _ => rfl⟩ h, rfl⟩

/-- RET reads no slot but stack[sp − 1]. -/
theorem ret_other_stack (s t u : State) (other : Vector Word 16)
    (htop : ∀ j : Fin 16, j.val + 1 = s.sp.val → other[j.val] = s.stack[j.val])
    (ht : exec .ret s = .next t) (hu : exec .ret { s with stack := other } = .next u) :
    u = { t with stack := other } := by
  rcases execRet_cases s with ⟨hempty, hs⟩ | ⟨hpos, hs⟩ <;> cases ht.symm.trans hs
  · cases hu.symm.trans (exec_ret_empty { s with stack := other } hempty)
    rfl
  · cases hu.symm.trans (exec_ret_occupied { s with stack := other } hpos)
    have hslot : other[s.sp.val - 1] = s.stack[s.sp.val - 1] := htop ⟨s.sp.val - 1, by omega⟩ (by simp only; omega)
    simp only [hslot]

theorem call_sp (nnn : Addr) (s t : State) (h : exec (.call nnn) s = .next t) :
    (s.sp.val < 16 → t.sp.val = s.sp.val + 1 ∧ t.fault = s.fault) ∧
    (s.sp.val = 16 → t.sp = s.sp ∧ ∃ r, t.fault = some r ∧ r.kind = .stackOverflow) := by
  refine ⟨fun hroom => ?_, fun hfull => ?_⟩
  · cases h.symm.trans (exec_call_room nnn s hroom)
    exact ⟨rfl, rfl⟩
  · cases h.symm.trans (exec_call_full nnn s hfull)
    exact ⟨rfl, _, rfl, rfl⟩

theorem ret_sp (s t : State) (h : exec .ret s = .next t) :
    (0 < s.sp.val → t.sp.val + 1 = s.sp.val ∧ t.fault = s.fault) ∧
    (s.sp.val = 0 → t.sp = s.sp ∧ ∃ r, t.fault = some r ∧ r.kind = .stackUnderflow) := by
  refine ⟨fun hpos => ?_, fun hempty => ?_⟩
  · cases h.symm.trans (exec_ret_occupied s hpos)
    exact ⟨Nat.sub_add_cancel hpos, rfl⟩
  · cases h.symm.trans (exec_ret_empty s hempty)
    exact ⟨rfl, _, rfl, rfl⟩

/-- Settles O43: the frame of the slots, CALL's push, and the two readings of a different stack. -/
theorem stackWrittenByCallReadByRet : Obligations.StackWrittenByCallReadByRet :=
  ⟨exec_stack_of_not_call, call_room_stack, exec_other_stack, ret_other_stack⟩

/-- Settles O44: the frame of sp, CALL and RET at and inside the ends, and the commuting square for another sp. -/
theorem stackPointerDiscipline : Obligations.StackPointerDiscipline := by
  refine ⟨fun i s t h => ⟨by omega, by omega, fun hc hr => exec_sp_of_not_call_ret i s t hc hr h, ?_, ?_⟩, ?_⟩
  · rintro nnn rfl
    exact call_sp nnn s t h
  · rintro rfl
    exact ret_sp s t h
  · intro i s t n hc hr h
    exact exec_mapHidden { sp := fun _ => n } i s t
      ⟨fun ⟨nnn, e⟩ => absurd e (hc nnn), fun e => absurd e hr, fun _ => rfl, fun _ => rfl⟩ h

/-! ### The display (10_state.md R38, R51) -/

@[simp] theorem State.length_displayPort (s : State) : s.displayPort.length = 2048 := by
  simp [State.displayPort, dispWidth, dispHeight]

/-- Column and line are read back from a row-major index. -/
theorem State.getElem?_displayPort (s : State) (x y : Nat) (hx : x < 64) (hy : y < 32) :
    s.displayPort[x + y * 64]? = some (if s.disp.pixel x y then 1 else 0) := by
  have hcol : (x + y * 64) % 64 = x := by omega
  have hline : (x + y * 64) / 64 = y := by omega
  have hin : x + y * 64 < 64 * 32 := by omega
  simp only [State.displayPort, List.getElem?_map, List.getElem?_range hin, Option.map_some, hcol, hline]

/-- Settles O50: the frame of the display, and the port's length and order. -/
theorem displayWrittenByClsAndDrw : Obligations.DisplayWrittenByClsAndDrw :=
  ⟨exec_disp_of_not_cls_drw, fun s x y hx hy => ⟨s.length_displayPort, s.getElem?_displayPort x y hx hy⟩⟩

/-! ### The keys (10_state.md R39) -/

/-- Settles O51: the frame of the keys over exec and the cycle, and the commuting square for other keys. -/
theorem keysOnlyReadByKeypadInstructions : Obligations.KeysOnlyReadByKeypadInstructions := by
  refine ⟨exec_key, executeCycle_key, fun _ _ => rfl, fun i s t k hi h => ?_⟩
  exact exec_mapHidden { key := fun _ => k } i s t
    ⟨fun _ => ⟨rfl, rfl⟩, fun _ => ⟨rfl, rfl⟩, fun hr => by simp [hi] at hr, fun _ => rfl⟩ h

end Sys2Proof.Machine
end

section
/-! PROOFS. Memory (spec/20_memory.md): a read after a write (R68), and what may change memory at all (R72). What one
request can do is said once, by `executeCycle_next_cases`; that an instruction which stores nothing keeps memory is
`exec_frame`. -/

namespace Sys2Proof.Machine

/-! ### One request, case by case -/

/-- What a request that answers a next state did: a fetch fault, a decode fault, or the decoded instruction and the timer
phase. Fetch and decode read only what `beginCycle` leaves alone, so they are stated on the state before it. -/
theorem executeCycle_next_cases (rnd : Byte) (s t : State) (h : executeCycle rnd s = .next t) :
    s.fault = none ∧
    ((∃ a, s.fetchFault = some a ∧ t = (s.beginCycle rnd).raise .addressOutOfBounds none (some a)) ∨
      (s.fetchable ∧ ∃ op, decode s.cfg.canonicalExtras s.opcodeAtPc = .unimplementedInstruction op ∧
        t = (s.beginCycle rnd).raise .unimplementedInstruction (some op) none) ∨
      (s.fetchable ∧ ∃ i u, decode s.cfg.canonicalExtras s.opcodeAtPc = .instr i ∧
        exec i (s.beginCycle rnd) = .next u ∧ t = u.tick)) := by
  cases hf : s.fault with
  | some r => cases h.symm.trans (executeCycle_halted rnd s r hf)
  | none =>
    rw [executeCycle_running rnd s hf] at h
    rw [s.fetchable_iff_fetchFault, s.opcodeAtPc_eq_fetchWord]
    refine ⟨rfl, ?_⟩
    rcases (s.beginCycle rnd).cycle_cases with ⟨a, hfetch, hc⟩ | ⟨hfetch, op, hd, hc⟩ | ⟨hfetch, i, u, hd, hu, hc⟩ <;>
      cases h.symm.trans hc
    · exact .inl ⟨a, hfetch, rfl⟩
    · exact .inr (.inl ⟨hfetch, op, hd, rfl⟩)
    · exact .inr (.inr ⟨hfetch, i, u, hd, hu, rfl⟩)

/-! ### What changes memory (20_memory.md R67, R72) -/

theorem exec_mem_of_not_store (i : Instr) (s t : State) (hb : ∀ x, i ≠ .ldBVx x) (hi : ∀ x, i ≠ .ldIVx x)
    (h : exec i s = .next t) : t.mem = s.mem :=
  exec_frame (·.mem) i s t h (fun _ _ _ => rfl) (fun _ _ => rfl) (fun _ _ _ => rfl) (fun _ _ _ => rfl)
    (fun _ _ _ => rfl) (fun _ _ _ _ => rfl) (fun _ _ _ => rfl) (fun _ _ _ => rfl)
    (fun _ _ e => e.elim (fun ⟨x, e⟩ => absurd e (hb x)) fun ⟨x, e⟩ => absurd e (hi x)) (fun _ _ _ => rfl)

theorem exec_store_of_mem_ne (i : Instr) (s t : State) (h : exec i s = .next t) (hne : t.mem ≠ s.mem) :
    ∃ x, i = .ldBVx x ∨ i = .ldIVx x := by
  by_contra hno
  push Not at hno
  exact hne (exec_mem_of_not_store i s t (fun x => (hno x).1) (fun x => (hno x).2) h)

theorem executeCycle_store_of_mem_ne (rnd : Byte) (s t : State) (h : executeCycle rnd s = .next t)
    (hne : t.mem ≠ s.mem) :
    s.fetchable ∧ ∃ x, decode s.cfg.canonicalExtras s.opcodeAtPc = .instr (.ldBVx x) ∨
      decode s.cfg.canonicalExtras s.opcodeAtPc = .instr (.ldIVx x) := by
  obtain ⟨_, ⟨_, _, rfl⟩ | ⟨_, _, _, rfl⟩ | ⟨hfetch, i, u, hd, hu, rfl⟩⟩ := executeCycle_next_cases rnd s t h
  · exact absurd rfl hne
  · exact absurd rfl hne
  · rw [State.tick_mem] at hne
    obtain ⟨x, rfl | rfl⟩ := exec_store_of_mem_ne i _ u hu hne
    · exact ⟨hfetch, x, .inl hd⟩
    · exact ⟨hfetch, x, .inr hd⟩

/-- After the first request, or after a load, a load is refused and changes nothing (R71). -/
theorem State.loadProgram_refused (s : State) (b : List Byte) (h : s.started = true ∨ s.loaded = true) :
    s.loadProgram b = (.loadRefused, s) := by
  simp [State.loadProgram, h]

/-- Settles O48: a cycle by its cases and the frame of memory, a load by its refusal once a cycle has been requested. -/
theorem memoryChangedOnlyByStoresAndLoad : Obligations.MemoryChangedOnlyByStoresAndLoad := by
  refine ⟨executeCycle_store_of_mem_ne, fun s b hne => ?_, fun _ _ => rfl⟩
  by_contra hstarted
  rw [s.loadProgram_refused b (.inl (Bool.eq_true_of_not_eq_false hstarted))] at hne
  exact hne rfl

/-! ### A read after a write (20_memory.md R68) -/

/-- Settles O49: the two branches of `State.byteAt_putByte`, the address written and every other. -/
theorem memoryReadAfterWrite : Obligations.MemoryReadAfterWrite := by
  intro s a v hwf _
  refine ⟨?_, fun b hb => ?_⟩
  · rw [s.byteAt_putByte a a v hwf, if_pos rfl]
  · rw [s.byteAt_putByte a b v hwf, if_neg hb]

end Sys2Proof.Machine
end

section
/-! PROOFS. The decode fault (spec/40_cycle.md R113): what a request does with a word the decoder rejects. The record
carries the word the decoder answers, so that word must be the one it was given (`eq_of_decode_rejects`, from R95). -/

namespace Sys2Proof.Machine

/-! ### The decoder rejects a word by that word (30_encoding.md R95) -/

theorem eq_of_extra_rejects (ext : Bool) (op w : Word) (i : Instr)
    (h : Decoded.extra ext op i = .unimplementedInstruction w) : w = op := by
  cases ext <;> cases h
  rfl

theorem eq_of_decodeClass8_rejects (ext : Bool) (op w : Word)
    (h : decodeClass8 ext op = .unimplementedInstruction w) : w = op := by
  simp only [decodeClass8] at h
  split at h
  case h_1 | h_8 => exact eq_of_extra_rejects ext op w _ h
  all_goals cases h
  rfl

theorem eq_of_decodeClassE_rejects (op w : Word) (h : decodeClassE op = .unimplementedInstruction w) : w = op := by
  simp only [decodeClassE] at h
  split at h <;> cases h
  rfl

theorem eq_of_decodeClassF_rejects (ext : Bool) (op w : Word)
    (h : decodeClassF ext op = .unimplementedInstruction w) : w = op := by
  simp only [decodeClassF] at h
  split at h
  case h_2 | h_4 | h_5 => exact eq_of_extra_rejects ext op w _ h
  all_goals cases h
  rfl

/-- Classes 0, 5 and 9 test further bits, B is an extra, 8, E and F have a decoder of their own; every other class decodes
whatever its operands are. -/
theorem eq_of_decode_rejects (ext : Bool) (op w : Word) (h : decode ext op = .unimplementedInstruction w) :
    w = op := by
  simp only [decode] at h
  split at h
  case h_1 | h_6 | h_10 =>
    split_ifs at h
    cases h
    rfl
  case h_9 => exact eq_of_decodeClass8_rejects ext op w h
  case h_12 => exact eq_of_extra_rejects ext op w _ h
  case h_15 => exact eq_of_decodeClassE_rejects op w h
  case h_16 => exact eq_of_decodeClassF_rejects ext op w h
  all_goals cases h

/-! ### The request that faults on decode (40_cycle.md R113) -/

/-- The whole next state of a request whose word does not decode: the started request with the fetched word raised. -/
theorem executeCycle_undecodable (rnd : Byte) (s : State) (op : Word) (hrun : s.fault = none) (hfetch : s.fetchable)
    (hd : decode s.cfg.canonicalExtras s.opcodeAtPc = .unimplementedInstruction op) :
    executeCycle rnd s =
      .next ((s.beginCycle rnd).raise .unimplementedInstruction (some s.opcodeAtPc) none) := by
  obtain rfl := eq_of_decode_rejects _ _ _ hd
  rw [s.fetchable_iff_fetchFault] at hfetch
  rw [s.opcodeAtPc_eq_fetchWord] at hd ⊢
  simp [executeCycle_running rnd s hrun, State.cycle, hfetch, hd]

/-- Settles O11: the record is the one the raise of the fetched word writes. -/
theorem undecodableWordFaults : Obligations.UndecodableWordFaults :=
  fun rnd s op hrun hfetch hd => ⟨_, executeCycle_undecodable rnd s op hrun hfetch hd, rfl⟩

end Sys2Proof.Machine
end

section
/-! PROOFS. Control transfer (spec/41_flow.md): RET (R131), JP (R132), CALL (R133). What one request answers is said by
case (`executeCycle_unfetchable`, `executeCycle_decoded`); a state that keeps pc, memory and the parameters fetches the
same word, and this makes the two self-loops loop. The chain of self-calls is an induction over the requests with
`SelfCall`. -/

namespace Sys2Proof.Machine

/-! ### Addresses and words -/

theorem packAddr_toNat (c : BitVec 4) (nnn : Addr) : (packAddr c nnn).toNat = c.toNat * 4096 + nnn.toNat := by
  rw [packAddr, BitVec.toNat_append, ← Nat.shiftLeft_add_eq_or_of_lt nnn.isLt, Nat.shiftLeft_eq]

@[simp] theorem zext16_toNat (nnn : Addr) : (zext16 nnn).toNat = nnn.toNat :=
  BitVec.toNat_setWidth_of_le (by decide)

/-! ### One request, outcome by outcome (40_cycle.md R111, R114, R115) -/

theorem executeCycle_unfetchable (rnd : Byte) (s : State) (hrun : s.fault = none) (hfetch : ¬ s.fetchable) :
    ∃ a, executeCycle rnd s = .next ((s.beginCycle rnd).raise .addressOutOfBounds none (some a)) := by
  rw [s.fetchable_iff_fetchFault] at hfetch
  obtain ⟨a, ha⟩ := Option.ne_none_iff_exists'.mp hfetch
  exact ⟨a, by simp [executeCycle_running rnd s hrun, State.cycle, ha]⟩

theorem executeCycle_decoded (rnd : Byte) (s u : State) (i : Instr) (hrun : s.fault = none) (hfetch : s.fetchable)
    (hd : decode s.cfg.canonicalExtras s.opcodeAtPc = .instr i) (hu : exec i (s.beginCycle rnd) = .next u) :
    executeCycle rnd s = .next u.tick := by
  rw [s.fetchable_iff_fetchFault] at hfetch
  rw [s.opcodeAtPc_eq_fetchWord] at hd
  simp [executeCycle_running rnd s hrun, State.cycle, hfetch, hd, hu, timerPhase]

theorem timerNext_toNat (b : Byte) : (timerNext b).toNat = b.toNat - 1 := by
  unfold timerNext
  split <;> bv_omega

/-! ### What a fetch reads -/

theorem State.fetchable_congr {s t : State} (hcfg : t.cfg = s.cfg) (hpc : t.pc = s.pc) :
    t.fetchable ↔ s.fetchable := by
  simp only [State.fetchable, hcfg, hpc]

theorem State.opcodeAtPc_congr {s t : State} (hcfg : t.cfg = s.cfg) (hpc : t.pc = s.pc) (hmem : t.mem = s.mem) :
    t.opcodeAtPc = s.opcodeAtPc := by
  simp only [State.opcodeAtPc, State.byteAt, hcfg, hpc, hmem]

/-! ### RET (R131) -/

/-- The popped address of a state with the invariant is a CALL's, at most 0xFFE, so the sum does not wrap. -/
theorem ret_target_le (s : State) (j : Fin 16) (hinv : Inv s) (hj : j.val < s.sp.val) :
    (s.stack[j.val] + 2).toNat ≤ 0x1000 := by
  have hslot := hinv.stack_le j hj
  bv_omega

theorem State.not_fetchable_of_pc_eq_memSize (s : State) (h : s.pc = 0x1000) : ¬ s.fetchable :=
  fun hfetch => absurd (h ▸ hfetch.2) (by decide)

theorem exec_ret_top (s : State) (j : Fin 16) (h : s.sp.val = j.val + 1) :
    exec .ret s = .next { s with sp := ⟨j.val, by omega⟩, pc := s.stack[j.val] + 2 } := by
  rw [exec_ret_occupied s (by omega)]
  simp only [h, Nat.add_sub_cancel]

theorem exec_call_then_ret (nnn : Addr) (s : State) (hroom : s.sp.val < 16) :
    ∃ t, exec (.call nnn) s = .next t ∧
      exec .ret t = .next { s with pc := s.pc + 2, stack := s.stack.set s.sp.val s.pc } := by
  refine ⟨_, exec_call_room nnn s hroom, ?_⟩
  rw [exec_ret_top _ ⟨s.sp.val, hroom⟩ rfl]
  simp only [Vector.getElem_set_self]

/-- Settles O16: RET on an empty stack, RET on an occupied one, and RET after a CALL. -/
theorem retPopsAndAddsTwo : Obligations.RetPopsAndAddsTwo := by
  refine ⟨rfl, fun s => ⟨fun hempty => exec_ret_empty s hempty, fun j hj => ?_, fun nnn hroom => ?_⟩⟩
  · exact ⟨_, exec_ret_top s j hj, rfl, BitVec.toNat_add .., rfl,
      fun hinv => ret_target_le s j hinv (by omega), State.not_fetchable_of_pc_eq_memSize _⟩
  · obtain ⟨t, hcall, hret⟩ := exec_call_then_ret nnn s hroom
    refine ⟨t, _, hcall, hret, rfl, rfl, fun j hj => ?_⟩
    simp only [hj, Vector.getElem_set_self]

/-! ### JP (R132) -/

theorem exec_jp (nnn : Addr) (s : State) : exec (.jp nnn) s = .next { s with pc := zext16 nnn } := rfl

/-- The idle loop: the request leaves pc and memory, so the next one fetches the same jump, and dt has counted down. -/
theorem executeCycle_selfJump (nnn : Addr) (rnd : Byte) (s : State) (hrun : s.fault = none) (hfetch : s.fetchable)
    (hd : decode s.cfg.canonicalExtras s.opcodeAtPc = .instr (.jp nnn)) (hself : s.pc = zext16 nnn) :
    executeCycle rnd s = .next ((s.beginCycle rnd).setDt (timerNext s.dt)) := by
  have hjump : exec (.jp nnn) (s.beginCycle rnd) = .next (s.beginCycle rnd) := by rw [exec_jp, ← hself]; rfl
  rw [executeCycle_decoded rnd s _ _ hrun hfetch hd hjump, (s.beginCycle rnd).tick_running hrun, State.beginCycle_dt]

/-- Settles O17: the jump, the fetch fault of a bad target, and the idle loop. -/
theorem jumpSetsPc : Obligations.JumpSetsPc := by
  refine fun nnn s => ⟨packAddr_toNat 0x1 nnn, ⟨_, exec_jp nnn s, zext16_toNat nnn, rfl, ?_⟩, ?_⟩
  · intro rnd hrun hbad
    obtain ⟨a, ha⟩ := executeCycle_unfetchable rnd _ hrun hbad
    exact ⟨_, _, ha, rfl, rfl⟩
  · intro hrun hfetch hd hpc rnd
    have hself : s.pc = zext16 nnn := BitVec.eq_of_toNat_eq (hpc.trans (zext16_toNat nnn).symm)
    exact ⟨_, executeCycle_selfJump nnn rnd s hrun hfetch hd hself, hrun, hfetch, rfl, rfl, timerNext_toNat s.dt⟩

/-! ### CALL (R133) -/

/-- A running block about to call its own pc, with that pc in each of the k occupied stack slots. -/
structure SelfCall (nnn : Addr) (k : Nat) (s : State) : Prop where
  running : s.fault = none
  fetch : s.fetchable
  decodes : decode s.cfg.canonicalExtras s.opcodeAtPc = .instr (.call nnn)
  pc_eq : s.pc = zext16 nnn
  sp_eq : s.sp.val = k
  slots : ∀ j : Fin 16, j.val < k → s.stack[j.val] = s.pc

theorem SelfCall.executeCycle_room {nnn : Addr} {k : Nat} {s : State} (h : SelfCall nnn k s) (hk : k < 16)
    (rnd : Byte) : ∃ t, executeCycle rnd s = .next t ∧ SelfCall nnn (k + 1) t := by
  obtain ⟨hrun, hfetch, hd, hpc, rfl, hslots⟩ := h
  have hcall := exec_call_room nnn (s.beginCycle rnd) hk
  refine ⟨_, executeCycle_decoded rnd s _ _ hrun hfetch hd hcall, ?_⟩
  exact {
    running := (State.tick_fault _).trans hrun
    fetch := (State.fetchable_congr (by simp) (by simp [hpc])).mpr hfetch
    decodes := by
      rw [State.opcodeAtPc_congr (s := s) (by simp) (by simp [hpc]) (by simp)]
      simpa using hd
    pc_eq := State.tick_pc _
    sp_eq := congrArg Fin.val (State.tick_sp _)
    slots := fun j hj => by
      rw [State.tick_stack, State.tick_pc, call_room_stack nnn (s.beginCycle rnd) _ j hk hcall]
      split_ifs with htop
      · exact hpc
      · exact (hslots j (Nat.lt_of_le_of_ne (Nat.le_of_lt_succ hj) htop)).trans hpc }

theorem SelfCall.executeCycle_full {nnn : Addr} {s : State} (h : SelfCall nnn 16 s) (rnd : Byte) :
    ∃ u r, executeCycle rnd s = .next u ∧ u.fault = some r ∧ r.kind = .stackOverflow := by
  have hcall := exec_call_full nnn (s.beginCycle rnd) h.sp_eq
  exact ⟨_, _, executeCycle_decoded rnd s _ _ h.running h.fetch h.decodes hcall, State.tick_fault _, rfl⟩

theorem runCycles_cons {b : Byte} {s t : State} (bs : List Byte) (h : executeCycle b s = .next t) :
    runCycles (b :: bs) s = runCycles bs t := by
  simp only [runCycles, h]

theorem SelfCall.runCycles_room {nnn : Addr} {k : Nat} {s : State} (bytes : List Byte) (h : SelfCall nnn k s)
    (hlen : k + bytes.length ≤ 16) :
    ∃ t, runCycles bytes s = some t ∧ SelfCall nnn (k + bytes.length) t := by
  induction bytes generalizing k s with
  | nil => exact ⟨s, rfl, h⟩
  | cons b bs ih =>
    rw [List.length_cons] at hlen ⊢
    obtain ⟨t, hstep, ht⟩ := h.executeCycle_room (by omega) b
    obtain ⟨u, hrun, hu⟩ := ih ht (by omega)
    exact ⟨u, (runCycles_cons bs hstep).trans hrun, by rwa [Nat.add_right_comm] at hu⟩

/-- Settles O18: CALL on a full stack, CALL with room, and the chain of self-calls from an empty stack. -/
theorem callPushesItsAddress : Obligations.CallPushesItsAddress := by
  refine fun nnn s => ⟨packAddr_toNat 0x2 nnn, fun hfull => exec_call_full nnn s hfull, fun hroom => ?_, ?_⟩
  · have hcall := exec_call_room nnn s hroom
    exact ⟨_, hcall, rfl, zext16_toNat nnn, fun j => call_room_stack nnn s _ j hroom hcall, rfl⟩
  · intro hrun hfetch hd hpc hsp bytes hlen
    have hself : s.pc = zext16 nnn := BitVec.eq_of_toNat_eq (hpc.trans (zext16_toNat nnn).symm)
    have hstart : SelfCall nnn 0 s := ⟨hrun, hfetch, hd, hself, hsp, fun _ hj => absurd hj (Nat.not_lt_zero _)⟩
    obtain ⟨t, ht, hchain⟩ := hstart.runCycles_room bytes (by omega)
    rw [Nat.zero_add] at hchain
    have hback : t.pc = s.pc := hchain.pc_eq.trans hself.symm
    exact ⟨t, ht, hchain.running, hback, hchain.sp_eq, fun j hj => (hchain.slots j hj).trans hback,
      fun h16 rnd => (h16 ▸ hchain).executeCycle_full rnd⟩

end Sys2Proof.Machine
end

section
/-! PROOFS. Loads and arithmetic (spec/43_alu.md): LD Vx, byte (R171). The word is `packXKK_toNat`; what the registers
read after the write is `State.setV_v`. -/

namespace Sys2Proof.Machine

/-! ### LD Vx, byte (R171) -/

theorem exec_ldImm (x : Reg) (kk : Byte) (s : State) : exec (.ldImm x kk) s = .next (s.setV x kk).advance := rfl

theorem State.setV_advance_v_same (s : State) (x : Reg) (b : Byte) : (s.setV x b).advance.v x = b := by
  rw [State.advance_v, State.setV_v, if_pos rfl]

theorem State.setV_advance_v_of_ne (s : State) {x r : Reg} (b : Byte) (hr : r ≠ x) :
    (s.setV x b).advance.v r = s.v r := by
  rw [State.advance_v, State.setV_v, if_neg hr]

/-- Settles O23: the packed word, the register written, every other register, and pc. -/
theorem loadImmediate : Obligations.LoadImmediate :=
  fun x kk s => ⟨packXKK_toNat 0x6 x kk, _, exec_ldImm x kk s, s.setV_advance_v_same x kk,
    fun _ hr => s.setV_advance_v_of_ne kk hr, State.advance_pc _, rfl⟩

end Sys2Proof.Machine
end

section
/-! PROOFS. Fatal conditions (spec/60_exceptions.md): the causes of StackOverflow and StackUnderflow (R303, R304), and
what never raises (R306). Which faults exec can take is `exec_raise_cases`; a request that faults before its execute
phase takes AddressOutOfBounds or UnimplementedInstruction (`executeCycle_next_cases`). -/

namespace Sys2Proof.Machine

/-! ### The faults of exec (R303, R304, R305) -/

/-- The kind of a record that exec wrote, and its cause. -/
theorem exec_fault_cause (i : Instr) (s t : State) (r : FaultRecord) (hrun : s.fault = none) (h : exec i s = .next t)
    (hr : t.fault = some r) :
    (r.kind = .addressOutOfBounds ∧ 0 < bytesAccessed i ∧ 0xFFF < s.I.toNat + (bytesAccessed i - 1)) ∨
      (r.kind = .stackOverflow ∧ (∃ nnn, i = .call nnn) ∧ s.sp.val = 16) ∨
      (r.kind = .stackUnderflow ∧ i = .ret ∧ s.sp.val = 0) := by
  rcases exec_raise_cases i s t h with ⟨hkept, _⟩ | ⟨k, a, rfl, hcause⟩
  · simp [hkept, hrun] at hr
  · cases hr
    rcases hcause with ⟨hk, hpos, hout, _⟩ | ⟨hk, hcall, hfull, _⟩ | ⟨hk, hret, hempty, _⟩
    · exact .inl ⟨hk, hpos, hout⟩
    · exact .inr (.inl ⟨hk, hcall, hfull⟩)
    · exact .inr (.inr ⟨hk, hret, hempty⟩)

theorem exec_stackOverflow_iff (i : Instr) (s t : State) (hrun : s.fault = none) (h : exec i s = .next t) :
    (∃ r, t.fault = some r ∧ r.kind = .stackOverflow) ↔ (∃ nnn, i = .call nnn) ∧ s.sp.val = 16 := by
  constructor
  · rintro ⟨r, hr, hk⟩
    simpa [hk] using exec_fault_cause i s t r hrun h hr
  · rintro ⟨⟨nnn, rfl⟩, hfull⟩
    exact ((call_sp nnn s t h).2 hfull).2

theorem exec_stackUnderflow_iff (i : Instr) (s t : State) (hrun : s.fault = none) (h : exec i s = .next t) :
    (∃ r, t.fault = some r ∧ r.kind = .stackUnderflow) ↔ i = .ret ∧ s.sp.val = 0 := by
  constructor
  · rintro ⟨r, hr, hk⟩
    simpa [hk] using exec_fault_cause i s t r hrun h hr
  · rintro ⟨rfl, hempty⟩
    exact ((ret_sp s t h).2 hempty).2

/-! ### The stack faults of a request -/

/-- A kind that neither fetch nor decode raises: if exec takes it for exactly the instructions `P`, a faulting request
takes it exactly when it decoded one of them. -/
theorem executeCycle_kind_iff (P : Instr → Prop) (k : FaultKind) (rnd : Byte) (s t : State) (r : FaultRecord)
    (hfetch : k ≠ .addressOutOfBounds) (hdecode : k ≠ .unimplementedInstruction)
    (hexec : ∀ i u, exec i (s.beginCycle rnd) = .next u → ((∃ q, u.fault = some q ∧ q.kind = k) ↔ P i))
    (h : executeCycle rnd s = .next t) (hr : t.fault = some r) :
    r.kind = k ↔ s.fetchable ∧ ∃ i, decode s.cfg.canonicalExtras s.opcodeAtPc = .instr i ∧ P i := by
  obtain ⟨_, ⟨a, hbad, rfl⟩ | ⟨_, op, hd, rfl⟩ | ⟨hok, i, u, hd, hu, rfl⟩⟩ := executeCycle_next_cases rnd s t h
  · cases hr
    simp [s.fetchable_iff_fetchFault, hbad, hfetch.symm]
  · cases hr
    simp [hd, hdecode.symm]
  · rw [State.tick_fault] at hr
    simpa [hok, hd, hr] using hexec i u hu

/-- Settles O45: the causes in exec, and over a request by `executeCycle_kind_iff` for each of the two kinds. -/
theorem stackFaultsHaveOneCause : Obligations.StackFaultsHaveOneCause := by
  refine ⟨fun i s t hrun h => ⟨exec_stackOverflow_iff i s t hrun h, exec_stackUnderflow_iff i s t hrun h⟩,
    fun rnd s t r hrun h hr => ⟨?_, ?_⟩⟩
  · rw [executeCycle_kind_iff _ .stackOverflow rnd s t r nofun nofun
      (fun i u hu => exec_stackOverflow_iff i (s.beginCycle rnd) u hrun hu) h hr]
    constructor
    · rintro ⟨hok, _, hd, ⟨nnn, rfl⟩, hfull⟩
      exact ⟨hok, ⟨nnn, hd⟩, hfull⟩
    · rintro ⟨hok, ⟨nnn, hd⟩, hfull⟩
      exact ⟨hok, _, hd, ⟨nnn, rfl⟩, hfull⟩
  · rw [executeCycle_kind_iff _ .stackUnderflow rnd s t r nofun nofun
      (fun i u hu => exec_stackUnderflow_iff i (s.beginCycle rnd) u hrun hu) h hr]
    constructor
    · rintro ⟨hok, _, hd, rfl, hempty⟩
      exact ⟨hok, hd, hempty⟩
    · rintro ⟨hok, hd, hempty⟩
      exact ⟨hok, _, hd, rfl, hempty⟩

/-! ### What never raises (R306) -/

/-- Only the stack and an access above 0xFFF can raise. -/
theorem exec_fault_none (i : Instr) (s t : State) (hcall : ∀ nnn, i ≠ .call nnn) (hret : i ≠ .ret)
    (hin : bytesAccessed i = 0 ∨ s.I.toNat + (bytesAccessed i - 1) ≤ 0xFFF) (hrun : s.fault = none)
    (h : exec i s = .next t) : t.fault = none := by
  refine Option.eq_none_iff_forall_ne_some.mpr fun r hr => ?_
  rcases exec_fault_cause i s t r hrun h hr with ⟨_, hpos, hout⟩ | ⟨_, ⟨nnn, hi⟩, _⟩ | ⟨_, hi, _⟩
  · omega
  · exact hcall nnn hi
  · exact hret hi

/-- Settles O40: the register operations access no byte, and DRW's rows are in range. -/
theorem overflowAndClippingNeverRaise : Obligations.OverflowAndClippingNeverRaise := by
  rintro x y kk n s t hrun (h | h | h | h | h | h | ⟨h, hrows⟩)
  on_goal 7 =>
    exact exec_fault_none (.drw x y n) s t nofun nofun (hrows.imp_left (congrArg Fin.val)) hrun h
  all_goals exact exec_fault_none _ s t (by nofun) (by nofun) (.inl rfl) hrun h

end Sys2Proof.Machine
end

section
/-! PROOFS. Reset and the entry point (spec/70_reset_and_hazards.md): a program loaded into the reset state stands
verbatim at 0x200, where the first fetch reads (R331). -/

namespace Sys2Proof.Machine

/-! ### The load port accepts (20_memory.md R70) -/

/-- A load before the first request and the first load, of a program that fits, is a block write at 0x200. -/
theorem State.loadProgram_accepted (s : State) (b : List Byte) (hstarted : s.started = false)
    (hloaded : s.loaded = false) (hlen : b.length ≤ progMax) :
    s.loadProgram b = (.ok, { s.writeBytes progBase b with loaded := true }) := by
  have hfits : ¬ progMax < b.length := hlen.not_gt
  simp [State.loadProgram, hstarted, hloaded, hfits]

/-- Byte j of a block that fits is at base + j. -/
theorem State.byteAt_writeBytes_add (bs : List Byte) (s : State) (base j : Nat) (h : Memory.wf s.cfg.font s.mem)
    (hb : base + bs.length ≤ memSize) (hj : j < bs.length) : (s.writeBytes base bs).byteAt (base + j) = bs[j] := by
  have hin : base ≤ base + j ∧ base + j - base < bs.length := by omega
  rw [State.byteAt_writeBytes bs s base (base + j) h hb, dif_pos hin]
  simp only [Nat.add_sub_cancel_left]

/-! ### The entry point (R331) -/

/-- Memory lists nothing after reset, which is the canonical form. -/
theorem State.initial_mem_wf (cfg : Config) : Memory.wf (State.initial cfg).cfg.font (State.initial cfg).mem :=
  ⟨.nil, nofun⟩

/-- A fetch at 0x200 reads the bytes at 0x200 and 0x201, the high byte first (R112). -/
theorem State.fetchWord_of_pc_eq_resetPc (s : State) (h : s.pc = resetPc) :
    s.fetchWord = s.byteAt 0x200 ++ s.byteAt 0x201 := by
  rw [State.fetchWord, h]
  rfl

/-- Settles O2: the load is accepted, moves neither pc nor the cycle latch, and writes its bytes from 0x200 on. -/
theorem entryPointIsProgramStart : Obligations.EntryPointIsProgramStart := by
  intro cfg b hlen
  have hpc : ((State.initial cfg).writeBytes progBase b).pc = resetPc := State.writeBytes_pc _ _ _
  have hfits : progBase + b.length ≤ memSize := Nat.add_le_add_left hlen progBase
  exact ⟨rfl, _, State.loadProgram_accepted _ b rfl rfl hlen, hpc, State.writeBytes_started _ _ _,
    State.fetchWord_of_pc_eq_resetPc _ hpc,
    fun j hj => State.byteAt_writeBytes_add b _ progBase j (State.initial_mem_wf cfg) hfits hj⟩

end Sys2Proof.Machine
end

section
/-! PROOFS. The encoding (spec/30_encoding.md). Decoder and encoder are inverse to one another (R92, R95, R99), and a
row of the opcode table selects exactly the words of its own instructions (R100); the statements about rows and about
illegal encodings follow from these three facts. -/

namespace Sys2Proof

/-! ### Decoding an encoded instruction (R95) -/

/-- The decoder finds the class of a packed word, and its low nibble or low byte where the class needs one, and reads
the operands back; an extra comes back when the extras are admitted. -/
theorem decode_encode (ext : Bool) (i : Instr) (h : (ext || !i.isExtra) = true) : decode ext (encode i) = .instr i := by
  cases i
  case cls | ret => all_goals rfl
  case jp | call | ldI | seImm | sneImm | ldImm | addImm | rnd | seReg | sneReg | drw => all_goals simp [encode, decode]
  case orReg | andReg | xorReg | addReg | sub | shr | shl => all_goals simp [encode, decode, decodeClass8]
  case skp | sknp => all_goals simp [encode, decode, decodeClassE]
  case ldVxDt | ldDtVx | ldFVx | ldBVx | ldIVx | ldVxI => all_goals simp [encode, decode, decodeClassF]
  case ldReg | subn | jpV0 | ldVxK | ldStVx | addIVx =>
    all_goals
      obtain rfl : ext = true := by simpa [Instr.isExtra] using h
      simp [encode, decode, decodeClass8, decodeClassF]

/-- The two words of class 0 that decode (R96). -/
@[simp] theorem classOf_cls : classOf 0x00E0#16 = 0 := rfl

@[simp] theorem classOf_ret : classOf 0x00EE#16 = 0 := rfl

/-! ### Encoding a decoded word (R92, R99) -/

theorem packXKK_of_fieldKK (op : Word) (c : BitVec 4) (kk : Byte) (hc : classOf op = c.toNat)
    (hk : (fieldKK op).toNat = kk.toNat) : packXKK c (fieldX op) kk = op := by
  rw [← BitVec.eq_of_toNat_eq hk, packXKK_fields op c hc]

theorem packXYN_of_fieldN (op : Word) (c : BitVec 4) (n : Rows) (hc : classOf op = c.toNat)
    (hn : (fieldN op).val = n.val) : packXYN c (fieldX op) (fieldY op) n = op := by
  rw [← Fin.ext hn, packXYN_fields op c hc]

/-- The word of `i` is `op`, and the extras are admitted if `i` is one of them (R99, 00_scope.md R8). -/
def IsWordOf (ext : Bool) (op : Word) (i : Instr) : Prop := encode i = op ∧ (ext || !i.isExtra) = true

theorem isWordOf_base (ext : Bool) {op : Word} {i : Instr} (hx : i.isExtra = false) (hw : encode i = op) :
    IsWordOf ext op i := ⟨hw, by simp [hx]⟩

theorem isWordOf_of_extra {ext : Bool} {op : Word} {i j : Instr} (h : Decoded.extra ext op j = .instr i)
    (hw : encode j = op) : IsWordOf ext op i := by
  obtain ⟨rfl, rfl⟩ := (Decoded.extra_eq_instr ext op j i).mp h
  exact ⟨hw, rfl⟩

theorem isWordOf_of_decodeClass8 {ext : Bool} {op : Word} {i : Instr} (hc : classOf op = 8)
    (h : decodeClass8 ext op = .instr i) : IsWordOf ext op i := by
  simp only [decodeClass8] at h
  split at h
  case h_1 hn | h_8 hn => exact isWordOf_of_extra h (packXYN_of_fieldN op 8 _ hc hn)
  case h_10 => cases h
  all_goals
    cases h
    exact isWordOf_base ext rfl (packXYN_of_fieldN op 8 _ hc ‹_›)

theorem isWordOf_of_decodeClassE {ext : Bool} {op : Word} {i : Instr} (hc : classOf op = 14)
    (h : decodeClassE op = .instr i) : IsWordOf ext op i := by
  simp only [decodeClassE] at h
  split at h <;> cases h
  all_goals exact isWordOf_base ext rfl (packXKK_of_fieldKK op 14 _ hc ‹_›)

theorem isWordOf_of_decodeClassF {ext : Bool} {op : Word} {i : Instr} (hc : classOf op = 15)
    (h : decodeClassF ext op = .instr i) : IsWordOf ext op i := by
  simp only [decodeClassF] at h
  split at h
  case h_2 hk | h_4 hk | h_5 hk => exact isWordOf_of_extra h (packXKK_of_fieldKK op 15 _ hc hk)
  case h_10 => cases h
  all_goals
    cases h
    exact isWordOf_base ext rfl (packXKK_of_fieldKK op 15 _ hc ‹_›)

theorem isWordOf_of_decode {ext : Bool} {op : Word} {i : Instr} (h : decode ext op = .instr i) :
    IsWordOf ext op i := by
  simp only [decode] at h
  split at h
  case h_1 =>
    split_ifs at h with he hr <;> cases h
    · exact isWordOf_base ext rfl he.symm
    · exact isWordOf_base ext rfl hr.symm
  case h_2 hc | h_3 hc | h_11 hc =>
    all_goals
      cases h
      exact isWordOf_base ext rfl (packAddr_fields op _ hc)
  case h_4 hc | h_5 hc | h_7 hc | h_8 hc | h_13 hc =>
    all_goals
      cases h
      exact isWordOf_base ext rfl (packXKK_fields op _ hc)
  case h_6 hc | h_10 hc =>
    all_goals
      split_ifs at h with hn
      cases h
      exact isWordOf_base ext rfl (packXYN_of_fieldN op _ 0 hc (congrArg Fin.val hn))
  case h_9 hc => exact isWordOf_of_decodeClass8 hc h
  case h_12 hc => exact isWordOf_of_extra h (packAddr_fields op 11 hc)
  case h_14 hc =>
    cases h
    exact isWordOf_base ext rfl (packXYN_fields op 13 hc)
  case h_15 hc => exact isWordOf_of_decodeClassE hc h
  case h_16 =>
    have hlt := classOf_lt op
    have hc : classOf op = 15 := by grind
    exact isWordOf_of_decodeClassF hc h

/-! ### The words a row selects (R100) -/

theorem matchesRow_eq_true (row : Word × Word) (op : Word) : matchesRow row op = true ↔ op &&& row.1 = row.2 :=
  beq_iff_eq

/-- A mask that keeps a field does not change it. -/
theorem extractLsb'_and_of_allOnes (op mask : Word) (start len : Nat)
    (hm : mask.extractLsb' start len = BitVec.allOnes len) :
    (op &&& mask).extractLsb' start len = op.extractLsb' start len := by
  rw [BitVec.extractLsb'_and, hm, BitVec.and_allOnes]

/-- Every mask keeps the class. -/
theorem classOf_of_matchesRow {i : Instr} {op : Word} (h : matchesRow (opcodeRow i) op = true) :
    classOf op = classOf (opcodeRow i).2 := by
  have hmask : (opcodeRow i).1.extractLsb' 12 4 = BitVec.allOnes 4 := by cases i <;> (simp only [opcodeRow]; rfl)
  rw [← (matchesRow_eq_true _ _).mp h, classOf, classOf, extractLsb'_and_of_allOnes _ _ _ _ hmask]

theorem fieldN_of_matches {op m : Word} (h : matchesRow (0xF00F, m) op = true) : fieldN op = fieldN m := by
  have hm : op &&& 0xF00F = m := (matchesRow_eq_true _ _).mp h
  rw [← hm, fieldN, fieldN, extractLsb'_and_of_allOnes _ _ _ _ (by rfl)]

theorem fieldKK_of_matches {op m : Word} (h : matchesRow (0xF0FF, m) op = true) : fieldKK op = fieldKK m := by
  have hm : op &&& 0xF0FF = m := (matchesRow_eq_true _ _).mp h
  rw [← hm, fieldKK, fieldKK, extractLsb'_and_of_allOnes _ _ _ _ (by rfl)]

theorem eq_of_matches_exact {op m : Word} (h : matchesRow (0xFFFF, m) op = true) : op = m :=
  BitVec.and_allOnes.symm.trans ((matchesRow_eq_true _ _).mp h)

/-- A word that a row selects decodes, once the extras are admitted, to an instruction of that row. -/
theorem decode_of_matchesRow {i : Instr} {op : Word} (h : matchesRow (opcodeRow i) op = true) :
    ∃ j, decode true op = .instr j ∧ opcodeRow j = opcodeRow i ∧ j.isExtra = i.isExtra := by
  have hc := classOf_of_matchesRow h
  cases i
  case cls | ret =>
    all_goals
      rw [eq_of_matches_exact h]
      exact ⟨_, rfl, rfl, rfl⟩
  case jp | call | ldI | jpV0 | seImm | sneImm | ldImm | addImm | rnd | drw =>
    all_goals
      simp only [decode, hc, opcodeRow]
      exact ⟨_, rfl, rfl, rfl⟩
  case seReg | sneReg =>
    all_goals
      simp only [decode, hc, opcodeRow, fieldN_of_matches h]
      exact ⟨_, rfl, rfl, rfl⟩
  case ldReg | orReg | andReg | xorReg | addReg | sub | shr | subn | shl =>
    all_goals
      simp only [decode, hc, opcodeRow, decodeClass8, fieldN_of_matches h]
      exact ⟨_, rfl, rfl, rfl⟩
  case skp | sknp =>
    all_goals
      simp only [decode, hc, opcodeRow, decodeClassE, fieldKK_of_matches h]
      exact ⟨_, rfl, rfl, rfl⟩
  case ldVxDt | ldVxK | ldDtVx | ldStVx | addIVx | ldFVx | ldBVx | ldIVx | ldVxI =>
    all_goals
      simp only [decode, hc, opcodeRow, decodeClassF, fieldKK_of_matches h]
      exact ⟨_, rfl, rfl, rfl⟩

/-- A word that the row of `i` selects is the word of an instruction of that row, an extra exactly when `i` is. -/
theorem encode_of_matchesRow {i : Instr} {op : Word} (h : matchesRow (opcodeRow i) op = true) :
    ∃ j, encode j = op ∧ opcodeRow j = opcodeRow i ∧ j.isExtra = i.isExtra := by
  obtain ⟨j, hd, hrow, hx⟩ := decode_of_matchesRow h
  exact ⟨j, (isWordOf_of_decode hd).1, hrow, hx⟩

open Laws.EncodeRow in
/-- The constructors' lemmas of `Laws.EncodeRow` as one statement (R99). -/
theorem matchesRow_encode (i : Instr) : matchesRow (opcodeRow i) (encode i) = true := by
  cases i
  exacts [cls, ret, jp _, call _, seImm _ _, sneImm _ _, seReg _ _, ldImm _ _, addImm _ _, ldReg _ _, orReg _ _,
    andReg _ _, xorReg _ _, addReg _ _, sub _ _, shr _ _, subn _ _, shl _ _, sneReg _ _, ldI _, jpV0 _, rnd _ _,
    drw _ _ _, skp _, sknp _, ldVxDt _, ldVxK _, ldDtVx _, ldStVx _, addIVx _, ldFVx _, ldBVx _, ldIVx _, ldVxI _]

/-! ### The statements -/

/-- Settles O3: `wellFormed` is the hypothesis of `decode_encode`. -/
theorem decodeOfEncode : Obligations.DecodeOfEncode :=
  fun cfg i h => decode_encode cfg.canonicalExtras i h

/-- Settles O4: `IsWordOf` for every branch of the decoder. -/
theorem encodeOfDecode : Obligations.EncodeOfDecode :=
  fun _ _ _ h => isWordOf_of_decode h

/-- Settles O5: a word of an admitted row decodes, and a word that decodes is of the row of what it decodes to. -/
theorem decodeRejectsExactlyUnmatchedWords : Obligations.DecodeRejectsExactlyUnmatchedWords := by
  refine fun cfg op => ⟨fun w h => Machine.eq_of_decode_rejects _ op w h, fun hreject i hi => ?_, fun hnone => ?_⟩
  · refine Bool.eq_false_iff.mpr fun hmatch => ?_
    obtain ⟨j, rfl, _, hx⟩ := encode_of_matchesRow hmatch
    have hd : decode cfg.canonicalExtras (encode j) = .instr j := decode_encode _ j (by rwa [hx])
    cases hd.symm.trans hreject
  · cases hd : decode cfg.canonicalExtras op with
    | unimplementedInstruction w => rw [Machine.eq_of_decode_rejects _ op w hd]
    | instr i =>
      obtain ⟨rfl, hi⟩ := isWordOf_of_decode hd
      cases (matchesRow_encode i).symm.trans (hnone i hi)

/-- Settles O6: two rows that select a word are the row of the one instruction it decodes to with the extras. -/
theorem opcodeRowsDisjoint : Obligations.OpcodeRowsDisjoint := by
  intro i j op hi hj
  obtain ⟨a, ha, hrowi, _⟩ := decode_of_matchesRow hi
  obtain ⟨b, hb, hrowj, _⟩ := decode_of_matchesRow hj
  cases ha.symm.trans hb
  exact hrowi.symm.trans hrowj

/-- Settles O7: a word that decodes is the word of an instruction, and none of these is listed. -/
theorem illegalEncodingsRejected : Obligations.IllegalEncodingsRejected := by
  intro ext op hill
  cases hd : decode ext op with
  | unimplementedInstruction w => rw [Machine.eq_of_decode_rejects ext op w hd]
  | instr i =>
    obtain ⟨rfl, hx⟩ := isWordOf_of_decode hd
    clear hd
    cases i
    case ldReg | subn | jpV0 | ldVxK | ldStVx | addIVx =>
      all_goals
        obtain rfl : ext = true := by simpa [Instr.isExtra] using hx
        simp [encode] at hill
    all_goals simp [encode] at hill

/-- Settles O8: each word is the word of the base instruction named. -/
theorem shownWordsDecode : Obligations.ShownWordsDecode :=
  fun ext =>
    have base (i : Instr) (hx : i.isExtra = false) : decode ext (encode i) = .instr i :=
      decode_encode ext i (by simp [hx])
    ⟨base (.ldImm 0 0x0A) rfl, base (.ldImm 1 0x0B) rfl, base (.addReg 0 1) rfl, base (.call 0x250) rfl, base .ret rfl⟩

end Sys2Proof
end

section
/-! PROOFS. Who may change what, over all instructions: the general registers (spec/10_state.md R20 to R22), I (R27),
dt (R31), memory (spec/20_memory.md R67), the status state and the ports (R33 to R37, R50, R52), and when an
instruction takes a fault (spec/60_exceptions.md R305, R308). `exec_frame` says what exec leaves alone where the
writers are named by constructor; `exec_register_frame` says it for V, I and dt, where the writers are named by
register. -/

namespace Sys2Proof.Machine

/-! ### V, I and dt -/

section RegisterFrame

variable {α : Type} (f : State → α)

/-- A function of V, I and dt. -/
def OfRegisters : Prop :=
  ∀ (u : State) pc sp stack disp mem soundWrite fault started,
    f { u with pc := pc, sp := sp, stack := stack, disp := disp, mem := mem, soundWrite := soundWrite, fault := fault,
               started := started } = f u

/-- Whether I is written by a block transfer or kept, its new value makes no difference to `f` unless it may be
written. -/
theorem frame_indexAfterBlock (s u : State) (x : Reg) (hu : u.I = s.I)
    (hI : ∀ w, s.cfg.loadStoreIncrementsI = true → f (u.setI w) = f u) : f (u.setI (s.indexAfterBlock x)) = f u := by
  cases hinc : s.cfg.loadStoreIncrementsI with
  | true => exact hI _ hinc
  | false => simp only [State.indexAfterBlock, hinc, Bool.false_eq_true, if_false, ← hu]; rfl

/-- A function of V, I and dt that no register write of instruction `i` changes has the same value after `i`. -/
theorem exec_register_frame (i : Instr) (s t : State) (h : exec i s = .next t) (hf : OfRegisters f)
    (hV : ∀ (u : State) r b, mayWriteReg s.cfg i r = true → f (u.setV r b) = f u)
    (hload : ∀ x base, i = .ldVxI x → f (s.loadRegs x base) = f s)
    (hI : ∀ (u : State) w, mayWriteI s.cfg i = true → f (u.setI w) = f u)
    (hdt : ∀ (u : State) b, (∃ x, i = .ldDtVx x) → f (u.setDt b) = f u) : f t = f s := by
  have hpc : ∀ (u : State) pc, f { u with pc := pc } = f u := fun u pc => hf u pc ..
  have hadv : ∀ u : State, f u.advance = f u := fun u => hpc u _
  have hraise : ∀ k o a, f (s.raise k o a) = f s := fun _ _ _ => hf s ..
  have hwrite : ∀ a bs, f (s.writeBytes a bs) = f s := fun a bs => by rw [State.writeBytes_eq]; exact hf s ..
  cases i
  case ret =>
    rcases execRet_cases s with ⟨_, hs⟩ | ⟨_, hs⟩ <;> cases h.symm.trans hs <;> exact hf s ..
  case call nnn =>
    rcases execCall_cases nnn s with ⟨_, hs⟩ | ⟨_, hs⟩ <;> cases h.symm.trans hs <;> exact hf s ..
  case ldVxK x => exact execLdVxK_frame f x s t h fun b => (hadv _).trans (hV s x b (by simp [mayWriteReg]))
  case drw x y n =>
    exact accessAtI_frame f _ _ s _ t h
      ((hadv _).trans ((hV _ VF _ (by simp [mayWriteReg])).trans (hf s ..))) hraise
  case ldBVx x => exact accessAtI_frame f _ _ s _ t h ((hadv _).trans (hwrite _ _)) hraise
  case ldIVx x =>
    have hidx := frame_indexAfterBlock f s (s.writeBytes s.I.toNat (s.regsUpTo x)) x (State.writeBytes_I s _ _) (hI _)
    exact accessAtI_frame f _ _ s _ t h ((hadv _).trans (hidx.trans (hwrite _ _))) hraise
  case ldVxI x =>
    have hidx := frame_indexAfterBlock f s (s.loadRegs x s.I.toNat) x (State.loadRegs_I s x _) (hI _)
    exact accessAtI_frame f _ _ s _ t h ((hadv _).trans (hidx.trans (hload x _ rfl))) hraise
  case seImm | sneImm | seReg | sneReg | skp | sknp | jp | jpV0 => all_goals cases h; exact hpc s _
  case cls | ldStVx => all_goals cases h; exact hf s ..
  case ldI | ldFVx | addIVx => all_goals cases h; exact (hadv _).trans (hI s _ rfl)
  case ldDtVx x => cases h; exact (hadv _).trans (hdt s _ ⟨x, rfl⟩)
  case ldImm | addImm | ldReg | rnd | ldVxDt =>
    all_goals cases h; exact (hadv _).trans (hV s _ _ (by simp [mayWriteReg]))
  case addReg | sub | subn | shr | shl =>
    all_goals
      cases h
      exact (hadv _).trans ((hV _ VF _ (by simp [mayWriteReg])).trans (hV s _ _ (by simp [mayWriteReg])))
  case orReg | andReg | xorReg =>
    all_goals
      cases h
      rw [hadv, State.setLogic]
      split
      · rename_i hreset
        exact (hV _ VF _ (by simp [mayWriteReg, hreset])).trans (hV s _ _ (by simp [mayWriteReg]))
      · exact hV s _ _ (by simp [mayWriteReg])

end RegisterFrame

/-- Settles O41: a register that `i` may not write is none of those it writes. -/
theorem generalRegisterFrame : Obligations.GeneralRegisterFrame := by
  intro i s t r h hr
  refine exec_register_frame (·.v r) i s t h (fun _ _ _ _ _ _ _ _ _ => rfl) (fun u q b hq => ?_) ?_ (fun _ _ _ => rfl)
    (fun _ _ _ => rfl)
  · have hne : r ≠ q := by
      rintro rfl
      simp [hr] at hq
    simp [hne]
  · rintro x base rfl
    have hgt : ¬ r ≤ x := by simpa [mayWriteReg] using hr
    simp [hgt]

/-- Settles O42: an instruction that may not write I does not. -/
theorem indexRegisterFrame : Obligations.IndexRegisterFrame := fun i s t h hi =>
  exec_register_frame (·.I) i s t h (fun _ _ _ _ _ _ _ _ _ => rfl) (fun _ _ _ _ => rfl) (fun _ _ _ => rfl)
    (fun _ _ hw => by simp [hi] at hw) (fun _ _ _ => rfl)

theorem exec_dt_of_not_ldDtVx (i : Instr) (s t : State) (hi : ∀ x, i ≠ .ldDtVx x) (h : exec i s = .next t) :
    t.dt = s.dt :=
  exec_register_frame (·.dt) i s t h (fun _ _ _ _ _ _ _ _ _ => rfl) (fun _ _ _ _ => rfl) (fun _ _ _ => rfl)
    (fun _ _ _ => rfl) (fun _ _ ⟨x, e⟩ => absurd e (hi x))

/-! ### The parameters and the status state -/

/-- What no instruction writes. -/
theorem exec_status_kept (i : Instr) (s t : State) (h : exec i s = .next t) :
    t.loaded = s.loaded ∧ t.rnd = s.rnd ∧ t.draws = s.draws ∧ t.cfg = s.cfg := by
  have hframe := exec_frame (fun u => (u.loaded, u.rnd, u.draws, u.cfg)) i s t h (fun _ _ _ => rfl) (fun _ _ => rfl)
    (fun _ _ _ => rfl) (fun _ _ _ => rfl) (fun _ _ _ => rfl) (fun _ _ _ _ => rfl) (fun _ _ _ => rfl)
    (fun _ _ _ => rfl) (fun _ _ _ => rfl) (fun _ _ _ => rfl)
  simpa only [Prod.mk.injEq] using hframe

theorem exec_cfg (i : Instr) (s t : State) (h : exec i s = .next t) : t.cfg = s.cfg := by
  obtain ⟨_, _, _, hcfg⟩ := exec_status_kept i s t h
  exact hcfg

/-! ### Memory (20_memory.md R67) -/

theorem State.byteAt_congr {s t : State} (hcfg : t.cfg = s.cfg) (hmem : t.mem = s.mem) (a : Nat) :
    t.byteAt a = s.byteAt a := by
  simp only [State.byteAt, hcfg, hmem]

theorem exec_mem_of_bytesStored_eq_zero (i : Instr) (s t : State) (hi : bytesStored i = 0) (h : exec i s = .next t) :
    t.mem = s.mem := by
  refine exec_mem_of_not_store i s t ?_ ?_ h
  · rintro x rfl
    simp [bytesStored] at hi
  · rintro x rfl
    simp [bytesStored] at hi

/-- An access at I whose effect is a block write of the bytes it accesses keeps memory, when it faults, or writes that
block, which is then in range. -/
theorem accessAtI_store (i : Instr) (n : Nat) (s u t : State) (bs : List Byte) (hlen : bs.length = n)
    (h : accessAtI i n s u = .next t) (hn : 0 < n) (hu : u.mem = (s.writeBytes s.I.toNat bs).mem) :
    t.mem = s.mem ∨ s.I.toNat + bs.length ≤ memSize ∧ t.mem = (s.writeBytes s.I.toNat bs).mem := by
  rcases accessAtI_cases i n s u with ⟨hin, hs⟩ | ⟨_, _, hs⟩ <;> cases h.symm.trans hs
  · exact .inr ⟨by omega, hu⟩
  · exact .inl rfl

/-- What exec can do to memory: nothing, or a block write at I of as many bytes as the instruction stores. -/
theorem exec_mem_cases (i : Instr) (s t : State) (h : exec i s = .next t) :
    t.mem = s.mem ∨ ∃ bs : List Byte, bs.length = bytesStored i ∧ s.I.toNat + bs.length ≤ memSize ∧
      t.mem = (s.writeBytes s.I.toNat bs).mem := by
  cases i
  case ldBVx x =>
    exact (accessAtI_store _ 3 s _ t (bcdDigits (s.v x)) rfl h (by decide) rfl).imp_right fun hs => ⟨_, rfl, hs⟩
  case ldIVx x =>
    have hlen := s.length_regsUpTo x
    exact (accessAtI_store _ _ s _ t _ hlen h (Nat.succ_pos _) rfl).imp_right fun hs => ⟨_, hlen, hs⟩
  all_goals exact .inl (exec_mem_of_bytesStored_eq_zero _ s t rfl h)

/-- Settles O47: an instruction that stores nothing, and the block write of one that stores. -/
theorem memoryFrame : Obligations.MemoryFrame := by
  intro i s t h
  have hcfg := exec_cfg i s t h
  refine ⟨fun hi => ?_, fun hwf a ha => ?_⟩
  · have hmem := exec_mem_of_bytesStored_eq_zero i s t hi h
    exact ⟨hmem, State.byteAt_congr hcfg hmem⟩
  · rcases exec_mem_cases i s t h with hmem | ⟨bs, hlen, hfit, hmem⟩
    · exact State.byteAt_congr hcfg hmem a
    · have hout : ¬ (s.I.toNat ≤ a ∧ a - s.I.toNat < bs.length) := by omega
      rw [State.byteAt_congr (hcfg.trans (State.writeBytes_cfg s _ bs).symm) hmem,
        State.byteAt_writeBytes bs s s.I.toNat a hwf hfit, dif_neg hout]

/-! ### The status state and the ports (10_state.md R33 to R37, R50, R52) -/

theorem exec_soundWrite_of_not_ldStVx (i : Instr) (s t : State) (hi : ∀ x, i ≠ .ldStVx x) (h : exec i s = .next t) :
    t.soundWrite = s.soundWrite :=
  exec_frame (·.soundWrite) i s t h (fun _ _ _ => rfl) (fun _ _ => rfl) (fun _ _ _ => rfl) (fun _ _ _ => rfl)
    (fun _ _ _ => rfl) (fun _ _ _ _ => rfl) (fun _ _ _ => rfl) (fun _ _ _ => rfl) (fun _ _ _ => rfl)
    (fun _ _ ⟨x, e⟩ => absurd e (hi x))

/-- Settles O52: the frames, the one way to take a fault, and the commuting square for another random byte. -/
theorem statusAndPortFrame : Obligations.StatusAndPortFrame := by
  refine ⟨fun i s t h => ?_, fun i s t b hi h => ?_⟩
  · obtain ⟨hloaded, hrnd, hdraws, hcfg⟩ := exec_status_kept i s t h
    refine ⟨hloaded, hrnd, hdraws, hcfg, ?_, fun hi => exec_soundWrite_of_not_ldStVx i s t hi h⟩
    refine (exec_raise_cases i s t h).imp_right ?_
    rintro ⟨k, a, rfl, _⟩
    exact ⟨_, rfl, rfl, rfl⟩
  · exact exec_mapHidden { rnd := fun _ => b } i s t
      ⟨fun _ => ⟨rfl, rfl⟩, fun _ => ⟨rfl, rfl⟩, fun _ => rfl, fun ⟨x, kk, e⟩ => absurd e (hi x kk)⟩ h

/-! ### Accesses above 0xFFF (20_memory.md R64, R65; 60_exceptions.md R305) -/

/-- Each of the four instructions that access bytes at I checks as many as it accesses before it has its effect. -/
theorem exec_eq_accessAtI (i : Instr) (s : State) (hi : 0 < bytesAccessed i) :
    ∃ u, exec i s = accessAtI i (bytesAccessed i) s u := by
  cases i
  case drw | ldBVx | ldIVx | ldVxI => all_goals exact ⟨_, rfl⟩
  all_goals exact absurd hi (Nat.lt_irrefl 0)

theorem exec_outOfRange (i : Instr) (s : State) (hi : 0 < bytesAccessed i)
    (hout : 0xFFF < s.I.toNat + (bytesAccessed i - 1)) :
    exec i s = .next (s.raise .addressOutOfBounds (some (encode i)) (some (max s.I.toNat memSize))) := by
  obtain ⟨u, hu⟩ := exec_eq_accessAtI i s hi
  rw [hu, accessAtI_outOfBounds i _ s u (by omega) (by simp only [memSize]; omega)]

/-- Settles O36: the lowest address above 0xFFF is I itself or 0x1000. -/
theorem outOfRangeAccessFaults : Obligations.OutOfRangeAccessFaults := by
  intro i s hi hout
  have hlow : max s.I.toNat memSize = if 0xFFF < s.I.toNat then s.I.toNat else 0x1000 := by
    simp only [memSize]
    split <;> omega
  rw [exec_outOfRange i s hi hout, hlow]
  rfl

/-! ### The faults of exec (60_exceptions.md R302, R305, R308) -/

/-- Settles O46: the causes of `exec_fault_cause` exhaust the faults, and each of them raises with the instruction's
word. -/
theorem executeFaultCauses : Obligations.ExecuteFaultCauses := by
  intro i s t hrun h
  refine ⟨⟨?_, ?_⟩, ?_⟩
  · rintro hnone (⟨⟨nnn, rfl⟩, hfull⟩ | ⟨rfl, hempty⟩ | ⟨hi, hout⟩)
    · cases h.symm.trans (exec_call_full nnn s hfull)
      cases hnone
    · cases h.symm.trans (exec_ret_empty s hempty)
      cases hnone
    · cases h.symm.trans (exec_outOfRange i s hi hout)
      cases hnone
  · intro hno
    refine Option.eq_none_iff_forall_ne_some.mpr fun r hr => hno ?_
    rcases exec_fault_cause i s t r hrun h hr with ⟨_, hout⟩ | ⟨_, hcall⟩ | ⟨_, hret⟩
    · exact .inr (.inr hout)
    · exact .inl hcall
    · exact .inr (.inl hret)
  · intro r hr
    rcases exec_raise_cases i s t h with ⟨hkept, _⟩ | ⟨k, a, rfl, hcause⟩
    · simp [hkept, hrun] at hr
    · cases hr
      refine ⟨?_, rfl, rfl⟩
      rcases hcause with ⟨rfl, _⟩ | ⟨rfl, _⟩ | ⟨rfl, _⟩ <;> nofun

end Sys2Proof.Machine
end

section
/-! PROOFS. The cycle (spec/40_cycle.md R111 to R120) and the halt (spec/60_exceptions.md R300, R309, R310): the fetch
fault, the record of a faulting request, what a request that completes did, and what follows for the timer
(spec/10_state.md R31), the random byte (R50) and sound_write (R52). -/

namespace Sys2Proof.Machine

/-! ### The fetch fault (R111) -/

/-- A fetch that is not in range is at a reserved address or too close to the end of memory for two bytes. -/
theorem State.not_fetchable_cases (s : State) (h : ¬ s.fetchable) :
    (s.cfg.reservedFetchFaults = true ∧ s.pc.toNat < 0x200) ∨ 0xFFE < s.pc.toNat := by
  by_contra hno
  rw [not_or, not_and, not_lt, not_lt] at hno
  exact h hno

/-- The address the fetch faults on is pc when pc is reserved or above 0xFFF, and 0x1000 when pc is 0xFFF. -/
theorem State.fetchFault_of_not_fetchable (s : State) (h : ¬ s.fetchable) :
    s.fetchFault = some (if s.cfg.reservedFetchFaults = true ∧ s.pc.toNat < 0x200 then s.pc.toNat
      else if s.pc.toNat = 0xFFF then 0x1000 else s.pc.toNat) := by
  by_cases hres : s.cfg.reservedFetchFaults = true ∧ s.pc.toNat < 0x200
  · simp [State.fetchFault, hres, progBase]
  · have hend : 0xFFE < s.pc.toNat := (s.not_fetchable_cases h).resolve_left hres
    have hres' : ¬ (s.cfg.reservedFetchFaults && decide (s.pc.toNat < progBase)) = true := by
      simpa [progBase] using hres
    rw [State.fetchFault, if_neg hres', if_neg hres, firstOutOfBounds_eq_some]
    simp only [memSize]
    split_ifs <;> omega

theorem executeCycle_fetchFault (rnd : Byte) (s : State) (a : Nat) (hrun : s.fault = none)
    (ha : s.fetchFault = some a) :
    executeCycle rnd s = .next ((s.beginCycle rnd).raise .addressOutOfBounds none (some a)) := by
  simp [executeCycle_running rnd s hrun, State.cycle, ha]

/-- Settles O10: the fetch fault at its address, as the one raise of the request. -/
theorem fetchFaultsAsListed : Obligations.FetchFaultsAsListed := fun rnd s hrun hbad =>
  executeCycle_fetchFault rnd s _ hrun (s.fetchFault_of_not_fetchable hbad)

/-! ### The fault record (R116; 10_state.md R33) -/

theorem State.not_fetchable_of_fetchFault {s : State} {a : Nat} (h : s.fetchFault = some a) : ¬ s.fetchable := by
  simp [s.fetchable_iff_fetchFault, h]

theorem State.fetchFault_record_wf (s : State) (a : Nat) (h : s.fetchFault = some a) :
    FaultRecord.wf ⟨.addressOutOfBounds, s.pc, none, some a⟩ := by
  refine ⟨by simp, by simp, fun b hb => ?_⟩
  cases hb
  have hbad := State.not_fetchable_of_fetchFault h
  have haddr := Option.some_inj.mp (h.symm.trans (s.fetchFault_of_not_fetchable hbad))
  split_ifs at haddr with hres hlast
  · exact .inr ⟨rfl, haddr, haddr ▸ hres.2⟩
  · exact .inl (by omega)
  · have hend := (s.not_fetchable_cases hbad).resolve_left hres
    exact .inl (by omega)

theorem unimplementedInstruction_record_wf (pc op : Word) :
    FaultRecord.wf ⟨.unimplementedInstruction, pc, some op, none⟩ := by
  simp [FaultRecord.wf]

/-- The record of a fault that exec takes has R33's shape. -/
theorem RaisedBy.record {i : Instr} {s t : State} (h : RaisedBy i s t) :
    ∃ k a, t = s.raise k (some (encode i)) a ∧ FaultRecord.wf ⟨k, s.pc, some (encode i), a⟩ := by
  obtain ⟨k, a, rfl, hcause⟩ := h
  refine ⟨k, a, rfl, ?_⟩
  rcases hcause with ⟨rfl, _, _, rfl⟩ | ⟨rfl, _, _, rfl⟩ | ⟨rfl, _, _, rfl⟩
  · have hout : 0xFFF < max s.I.toNat memSize := by simp [memSize]
    simp [FaultRecord.wf, hout]
  · simp [FaultRecord.wf]
  · simp [FaultRecord.wf]

/-- exec on a running block completes, or takes a fault whose record has R33's shape. -/
theorem exec_running_cases (i : Instr) (s t : State) (hrun : s.fault = none) (h : exec i s = .next t) :
    (t.fault = none ∧ t.started = s.started) ∨
    ∃ k a, t = s.raise k (some (encode i)) a ∧ FaultRecord.wf ⟨k, s.pc, some (encode i), a⟩ := by
  rcases exec_raise_cases i s t h with ⟨hkept, hstarted⟩ | hraised
  · exact .inl ⟨hkept.trans hrun, hstarted⟩
  · exact .inr hraised.record

/-- Settles O12: the three raises of a request, each with its record. -/
theorem faultsArePrecise : Obligations.FaultsArePrecise := by
  intro rnd s t r hrun h hr
  obtain ⟨_, ⟨a, ha, rfl⟩ | ⟨hfetch, op, hd, rfl⟩ | ⟨hfetch, i, u, hd, hu, rfl⟩⟩ := executeCycle_next_cases rnd s t h
  · cases hr
    exact ⟨rfl, rfl, s.fetchFault_record_wf a ha, by simp [State.not_fetchable_of_fetchFault ha]⟩
  · cases hr
    cases eq_of_decode_rejects _ _ _ hd
    exact ⟨rfl, rfl, unimplementedInstruction_record_wf _ _, by simp [hfetch]⟩
  · rw [State.tick_fault] at hr
    rcases exec_running_cases i (s.beginCycle rnd) u hrun hu with ⟨hnone, _⟩ | ⟨k, a, rfl, hwf⟩
    · simp [hnone] at hr
    · rw [State.tick_faulted _ (by simp)]
      cases hr
      obtain ⟨hword, _⟩ := isWordOf_of_decode hd
      exact ⟨rfl, rfl, hwf, by simp [hfetch, hword]⟩

/-! ### A request on a running block (R114, R115, R120) -/

theorem executeCycle_running_next (rnd : Byte) (s : State) (hrun : s.fault = none) :
    ∃ t, executeCycle rnd s = .next t ∧ t.started = true := by
  rw [executeCycle_running rnd s hrun]
  rcases (s.beginCycle rnd).cycle_cases with ⟨_, _, hc⟩ | ⟨_, _, _, hc⟩ | ⟨_, i, u, _, hu, hc⟩
  · exact ⟨_, hc, rfl⟩
  · exact ⟨_, hc, rfl⟩
  · refine ⟨_, hc, ?_⟩
    rw [State.tick_started]
    rcases exec_running_cases i (s.beginCycle rnd) u hrun hu with ⟨_, hkept⟩ | ⟨_, _, rfl, _⟩
    · exact hkept
    · rfl

/-- Settles O14: the running block steps, and the halted one answers its record. -/
theorem runningBlockAlwaysSteps : Obligations.RunningBlockAlwaysSteps := by
  intro s
  rw [step_eq]
  cases hf : s.fault with
  | none =>
    obtain ⟨t, ht, hstarted⟩ := executeCycle_running_next (Config.freeRnd s.draws) s.countDraw hf
    rw [ht]
    exact ⟨fun _ => ⟨t, rfl, hstarted⟩, nofun, nofun⟩
  | some r =>
    rw [executeCycle_halted _ s.countDraw r hf]
    exact ⟨nofun, nofun, fun f hfault => ⟨r, rfl, by cases hfault; rfl⟩⟩

/-- A load writes memory and loaded, or nothing. -/
theorem State.loadProgram_cases (s : State) (b : List Byte) :
    (s.loadProgram b).2 = s ∨
      b.length ≤ progMax ∧ (s.loadProgram b).2 = { s.writeBytes progBase b with loaded := true } := by
  unfold State.loadProgram
  split_ifs with _ hlen
  · exact .inl rfl
  · exact .inl rfl
  · exact .inr ⟨Nat.not_lt.mp hlen, rfl⟩

theorem State.loadProgram_fault (s : State) (b : List Byte) : (s.loadProgram b).2.fault = s.fault := by
  rcases s.loadProgram_cases b with h | ⟨_, h⟩ <;> rw [h]
  exact State.writeBytes_fault s progBase b

/-- Settles O13: the halted request, and the fault record after each of the other ports. -/
theorem haltLastsUntilReset : Obligations.HaltLastsUntilReset := fun s r hr =>
  ⟨fun rnd => executeCycle_halted rnd s r hr, executeCycle_halted _ s.countDraw r hr, fun _ => hr,
    fun b => (s.loadProgram_fault b).trans hr, rfl⟩

/-- The timer phase as R115 writes it. -/
theorem State.tick_eq (t : State) :
    t.tick = if t.fault = none then { t with dt := if t.dt = 0 then 0 else t.dt - 1 } else t := by
  split
  · exact t.tick_running ‹_›
  · exact t.tick_faulted ‹_›

/-- Settles O9: the request of `step`, decoded. -/
theorem stepRunsDecodedInstruction : Obligations.StepRunsDecodedInstruction := by
  intro s i hrun hfetch hd
  obtain ⟨t, ht⟩ := exec_next i (s.countDraw.beginCycle (Config.freeRnd s.draws))
  refine ⟨t, ht, ?_⟩
  rw [← t.tick_eq]
  exact executeCycle_decoded _ s.countDraw t i hrun hfetch hd ht

/-- A request that completes ran the decoded instruction, which completed, and counted dt down. -/
theorem executeCycle_completed (rnd : Byte) (s t : State) (h : executeCycle rnd s = .next t) (hdone : t.fault = none) :
    ∃ i u, decode s.cfg.canonicalExtras s.opcodeAtPc = .instr i ∧ exec i (s.beginCycle rnd) = .next u ∧
      t = u.setDt (timerNext u.dt) := by
  obtain ⟨_, ⟨a, _, rfl⟩ | ⟨_, op, _, rfl⟩ | ⟨_, i, u, hd, hu, rfl⟩⟩ := executeCycle_next_cases rnd s t h
  · cases hdone
  · cases hdone
  · exact ⟨i, u, hd, hu, u.tick_running (by rwa [State.tick_fault] at hdone)⟩

/-! ### The delay timer (10_state.md R31) -/

theorem timerNext_eq (b : Byte) : timerNext b = BitVec.ofNat 8 (b.toNat - 1) := by
  rw [← timerNext_toNat, BitVec.ofNat_toNat, BitVec.setWidth_eq]

theorem exec_ldDtVx (x : Reg) (s : State) : exec (.ldDtVx x) s = .next (s.setDt (s.v x)).advance := rfl

theorem exec_ldVxDt (x : Reg) (s : State) : exec (.ldVxDt x) s = .next (s.setV x s.dt).advance := rfl

/-- Settles O15: the write, the read, the frame of dt, and the count of a request that completes. -/
theorem delayTimerCountsCycles : Obligations.DelayTimerCountsCycles := by
  refine ⟨fun x s => ⟨_, exec_ldDtVx x s, rfl⟩, fun x s => ⟨_, exec_ldVxDt x s, s.setV_advance_v_same x _,
    fun _ hr => s.setV_advance_v_of_ne _ hr, rfl⟩, exec_dt_of_not_ldDtVx, fun rnd s t _ h hdone => ?_⟩
  obtain ⟨i, u, hd, hu, rfl⟩ := executeCycle_completed rnd s t h hdone
  exact ⟨i, u, hd, hu, by rw [← timerNext_eq]; rfl⟩

/-! ### The random byte (10_state.md R50; 44_index_random.md R202) -/

theorem exec_rnd (x : Reg) (kk : Byte) (s : State) : exec (.rnd x kk) s = .next (s.setV x (s.rnd &&& kk)).advance := rfl

/-- A request that decodes RND leaves its random byte under the mask. -/
theorem executeCycle_rnd (x : Reg) (kk b : Byte) (s : State) (hrun : s.fault = none) (hfetch : s.fetchable)
    (hd : decode s.cfg.canonicalExtras s.opcodeAtPc = .instr (.rnd x kk)) :
    ∃ t, executeCycle b s = .next t ∧ t.v x = b &&& kk := by
  refine ⟨_, executeCycle_decoded b s _ _ hrun hfetch hd (exec_rnd x kk _), ?_⟩
  rw [State.tick_v, State.setV_advance_v_same, State.beginCycle_rnd]

/-- Settles O29: exec on the latch, a request with any byte, and a step with the free draw. -/
theorem randomByteUnderMask : Obligations.RandomByteUnderMask := fun x kk s =>
  ⟨⟨_, exec_rnd x kk s, s.setV_advance_v_same x _, fun _ hr => s.setV_advance_v_of_ne _ hr, rfl, rfl⟩,
    fun hrun hfetch hd => ⟨fun b => executeCycle_rnd x kk b s hrun hfetch hd,
      executeCycle_rnd x kk _ s.countDraw hrun hfetch hd⟩⟩

/-! ### sound_write (10_state.md R52; 47_fclass.md R271) -/

theorem exec_ldStVx (x : Reg) (s : State) : exec (.ldStVx x) s = .next (s.strobeSound (s.v x)).advance := rfl

/-- Settles O30: the strobe, and the request that makes the port idle and decodes another instruction or none. -/
theorem soundWriteStrobe : Obligations.SoundWriteStrobe := by
  refine ⟨fun x s => ⟨_, exec_ldStVx x s, rfl, rfl⟩, fun rnd s t h hnot => ?_⟩
  obtain ⟨_, ⟨a, _, rfl⟩ | ⟨_, op, _, rfl⟩ | ⟨_, i, u, hd, hu, rfl⟩⟩ := executeCycle_next_cases rnd s t h
  · rfl
  · rfl
  · have hi : ∀ x, i ≠ .ldStVx x := by
      rintro x rfl
      exact hnot x hd
    exact (State.tick_soundWrite u).trans (exec_soundWrite_of_not_ldStVx i _ u hi hu)

end Sys2Proof.Machine
end

section
/-! PROOFS. The invariant of spec/10_state.md R43: it holds after reset, exec keeps it part by part (memory, pc, the
stack), a raise keeps it with a record of R33's shape, and so every request and every port keeps it. -/

namespace Sys2Proof.Machine

/-! ### Reset -/

theorem State.initial_inv (cfg : Config) : Inv (State.initial cfg) where
  mem_wf := State.initial_mem_wf cfg
  pc_le := by
    change 0x200 ≤ pcBound cfg
    unfold pcBound
    split <;> decide
  stack_le := nofun
  record_wf := nofun

/-- Settles O55: this hardware's reset state is the reset state at its parameters. -/
theorem invariantAtReset : Obligations.InvariantAtReset := ⟨State.initial_inv _, State.initial_inv⟩

/-! ### exec -/

theorem exec_keeps_mem_wf (i : Instr) (s t : State) (hinv : Inv s) (h : exec i s = .next t) :
    Memory.wf t.cfg.font t.mem := by
  rw [exec_cfg i s t h]
  rcases exec_mem_cases i s t h with hmem | ⟨bs, _, hfit, hmem⟩ <;> rw [hmem]
  · exact hinv.mem_wf
  · have hwf := State.writeBytes_wf bs s s.I.toNat hinv.mem_wf hfit
    rwa [State.writeBytes_cfg] at hwf

/-- The bound of R43 covers every fall-through and skip from an address a fetch can be made at. -/
theorem le_pcBound (cfg : Config) : 0x1002 ≤ pcBound cfg := by
  unfold pcBound
  split <;> decide

theorem jpV0_target_toNat (nnn : Addr) (v : Byte) : (zext16 nnn + v.setWidth 16).toNat = nnn.toNat + v.toNat := by
  have hn := nnn.isLt
  have hv := v.isLt
  rw [BitVec.toNat_add, zext16_toNat, BitVec.toNat_setWidth]
  omega

/-- Where each instruction leaves pc, fetched at 0xFFE or below: past itself, past the next one, at a 12-bit target,
at the return address, or, with the extras, at a 12-bit target plus V[0]. -/
theorem exec_pc_le (i : Instr) (s t : State) (hinv : Inv s) (hpc : s.pc.toNat ≤ 0xFFE)
    (hi : i.wellFormed s.cfg = true) (h : exec i s = .next t) : t.pc.toNat ≤ pcBound s.cfg := by
  have hbound := le_pcBound s.cfg
  have hstay : s.pc.toNat ≤ pcBound s.cfg := by omega
  have hadv : (s.pc + 2).toNat ≤ pcBound s.cfg := by bv_omega
  have hskip : ∀ b : Bool, (if b then s.pc + 4 else s.pc + 2).toNat ≤ pcBound s.cfg := by
    intro b
    cases b <;> simp only [Bool.false_eq_true, if_true, if_false] <;> bv_omega
  have hjump : ∀ nnn : Addr, (zext16 nnn).toNat ≤ pcBound s.cfg := by
    intro nnn
    have := nnn.isLt
    rw [zext16_toNat]
    omega
  cases i
  case ret =>
    rcases execRet_cases s with ⟨_, hs⟩ | ⟨hpos, hs⟩ <;> cases h.symm.trans hs
    · exact hstay
    · have htop : s.sp.val - 1 < 16 := by omega
      have := ret_target_le s ⟨s.sp.val - 1, htop⟩ hinv (by simp only; omega)
      simp only at this ⊢
      omega
  case call nnn =>
    rcases execCall_cases nnn s with ⟨_, hs⟩ | ⟨_, hs⟩ <;> cases h.symm.trans hs
    · exact hstay
    · exact hjump nnn
  case jp nnn => cases h; exact hjump nnn
  case jpV0 nnn =>
    cases h
    have hext : s.cfg.canonicalExtras = true := by simpa [Instr.wellFormed, Instr.isExtra] using hi
    have hn := nnn.isLt
    have hv := (s.v 0).isLt
    simp only [State.jumpTo_pc, jpV0_target_toNat, pcBound, hext, if_true]
    omega
  case seImm | sneImm | seReg | sneReg | skp | sknp => all_goals cases h; exact hskip _
  case ldVxK x =>
    simp only [exec, execLdVxK] at h
    split at h <;> cases h
    · exact hadv
    · exact hstay
  case drw | ldBVx | ldIVx | ldVxI =>
    all_goals
      rcases accessAtI_cases _ _ s _ with ⟨_, hs⟩ | ⟨_, _, hs⟩ <;> cases h.symm.trans hs
      · simpa using hadv
      · exact hstay
  all_goals
    cases h
    simpa using hadv

/-- CALL pushes an address that was fetched at; RET leaves fewer occupied slots; nothing else touches slots or sp. -/
theorem exec_stack_le (i : Instr) (s t : State) (hinv : Inv s) (hpc : s.pc.toNat ≤ 0xFFE) (h : exec i s = .next t) :
    ∀ j : Fin 16, j.val < t.sp.val → t.stack[j.val].toNat ≤ 0xFFE := by
  intro j hj
  by_cases hcall : ∃ nnn, i = .call nnn
  · obtain ⟨nnn, rfl⟩ := hcall
    rcases execCall_cases nnn s with ⟨_, hs⟩ | ⟨hroom, hs⟩
    · cases h.symm.trans hs
      exact hinv.stack_le j hj
    · have hsp := ((call_sp nnn s t h).1 hroom).1
      rw [call_room_stack nnn s t j hroom h]
      split_ifs with htop
      · exact hpc
      · exact hinv.stack_le j (by omega)
  · have hnot : ∀ nnn, i ≠ .call nnn := fun nnn e => hcall ⟨nnn, e⟩
    have hsp : t.sp.val ≤ s.sp.val := by
      by_cases hret : i = .ret
      · subst hret
        rcases execRet_cases s with ⟨_, hs⟩ | ⟨_, hs⟩ <;> cases h.symm.trans hs
        · exact Nat.le_refl _
        · exact Nat.sub_le _ _
      · rw [exec_sp_of_not_call_ret i s t hnot hret h]
    simp only [exec_stack_of_not_call i s t hnot h]
    exact hinv.stack_le j (Nat.lt_of_lt_of_le hj hsp)

/-- A raise keeps the invariant when its record has R33's shape. -/
theorem Inv.raise {s : State} (hinv : Inv s) {k : FaultKind} {op : Option Word} {a : Option Nat}
    (hwf : FaultRecord.wf ⟨k, s.pc, op, a⟩) : Inv (s.raise k op a) where
  mem_wf := hinv.mem_wf
  pc_le := hinv.pc_le
  stack_le := hinv.stack_le
  record_wf r hr := by
    cases hr
    exact ⟨hwf, rfl, rfl⟩

/-- An instruction that the machine has, executed where it can be fetched, keeps the invariant of a running block. -/
theorem exec_keeps_inv (i : Instr) (s t : State) (hinv : Inv s) (hrun : s.fault = none) (hfetch : s.fetchable)
    (hi : i.wellFormed s.cfg = true) (h : exec i s = .next t) : Inv t := by
  rcases exec_running_cases i s t hrun h with ⟨hnone, _⟩ | ⟨k, a, rfl, hwf⟩
  · exact {
      mem_wf := exec_keeps_mem_wf i s t hinv h
      pc_le := by rw [exec_cfg i s t h]; exact exec_pc_le i s t hinv hfetch.2 hi h
      stack_le := exec_stack_le i s t hinv hfetch.2 h
      record_wf := fun r hr => by simp [hnone] at hr }
  · exact hinv.raise hwf

/-! ### The cycle -/

/-- The invariant reads neither dt nor the port latches, and started only beside a fault. -/
theorem Inv.tick {t : State} (hinv : Inv t) : Inv t.tick := by
  rw [t.tick_eq]
  split
  · exact ⟨hinv.mem_wf, hinv.pc_le, hinv.stack_le, hinv.record_wf⟩
  · exact hinv

theorem Inv.beginCycle {s : State} (hinv : Inv s) (rnd : Byte) : Inv (s.beginCycle rnd) where
  mem_wf := hinv.mem_wf
  pc_le := hinv.pc_le
  stack_le := hinv.stack_le
  record_wf r hr := ⟨(hinv.record_wf r hr).1, (hinv.record_wf r hr).2.1, rfl⟩

theorem executeCycle_keeps_inv (rnd : Byte) (s t : State) (hinv : Inv s) (h : executeCycle rnd s = .next t) :
    Inv t := by
  have hbegun := hinv.beginCycle rnd
  obtain ⟨hrun, ⟨a, ha, rfl⟩ | ⟨_, op, _, rfl⟩ | ⟨hfetch, i, u, hd, hu, rfl⟩⟩ := executeCycle_next_cases rnd s t h
  · exact hbegun.raise (s.fetchFault_record_wf a ha)
  · exact hbegun.raise (unimplementedInstruction_record_wf _ _)
  · obtain ⟨_, hi⟩ := isWordOf_of_decode hd
    exact (exec_keeps_inv i _ u hbegun hrun hfetch hi hu).tick

theorem executeCycle_cfg (rnd : Byte) (s t : State) (h : executeCycle rnd s = .next t) : t.cfg = s.cfg := by
  obtain ⟨_, ⟨_, _, rfl⟩ | ⟨_, _, _, rfl⟩ | ⟨_, i, u, _, hu, rfl⟩⟩ := executeCycle_next_cases rnd s t h
  · rfl
  · rfl
  · exact (State.tick_cfg u).trans (exec_cfg i (s.beginCycle rnd) u hu)

/-- Settles O56: a step is a request, and the draw counter is no part of the invariant. -/
theorem stepKeepsInvariant : Obligations.StepKeepsInvariant := fun s t hinv h =>
  executeCycle_keeps_inv _ s.countDraw t ⟨hinv.mem_wf, hinv.pc_le, hinv.stack_le, hinv.record_wf⟩ h

end Sys2Proof.Machine
end

section
/-! PROOFS. The ports (spec/10_state.md R45 to R48, spec/20_memory.md R70, R71) and the reset table (R42); and, by
induction over the host's port operations, the invariant in every state a host can bring the block to (R43). -/

namespace Sys2Proof.Machine

/-! ### The reset table (R42) -/

@[simp] theorem State.initial_v (cfg : Config) (r : Reg) : (State.initial cfg).v r = 0 := by
  simp [State.v, State.initial]

@[simp] theorem State.initial_stack (cfg : Config) (j : Fin 16) : (State.initial cfg).stack[j.val] = 0 := by
  simp [State.initial]

@[simp] theorem State.initial_key (cfg : Config) (k : Fin 16) : (State.initial cfg).key[k.val] = false := by
  simp [State.initial]

@[simp] theorem State.initial_pixel (cfg : Config) (x y : Nat) : (State.initial cfg).disp.pixel x y = false :=
  Display.pixel_clear x y

/-- The font stands in the first 80 bytes (R40). -/
theorem State.initial_byteAt_font (cfg : Config) (a : Fin 80) : (State.initial cfg).byteAt a.val = cfg.font[a.val] :=
  dif_pos a.isLt

theorem State.initial_byteAt_above (cfg : Config) (a : Nat) (h : 80 ≤ a) : (State.initial cfg).byteAt a = 0 :=
  dif_neg (Nat.not_lt.mpr h)

/-- Settles O1: the table, field by field. -/
theorem resetTable : Obligations.ResetTable := by
  refine ⟨rfl, ?_⟩
  rintro cfg _ rfl
  exact ⟨State.initial_v cfg, rfl, rfl, rfl, State.initial_stack cfg, rfl, State.initial_byteAt_font cfg,
    fun a h _ => State.initial_byteAt_above cfg a h, fun x y _ _ => State.initial_pixel cfg x y,
    State.initial_key cfg, rfl, rfl, rfl⟩

/-- Settles O54: the reset port leaves the reset state but for key and the draw counter, which these fields do not
show. -/
theorem resetAndKeyPorts : Obligations.ResetAndKeyPorts := fun s _ =>
  ⟨State.initial_v s.cfg, rfl, rfl, rfl, State.initial_stack s.cfg, rfl, State.initial_byteAt_font s.cfg,
    State.initial_byteAt_above s.cfg, fun x y _ _ => State.initial_pixel s.cfg x y, rfl, rfl, rfl, rfl, rfl, rfl, rfl,
    fun _ => rfl, rfl⟩

/-! ### load_program (20_memory.md R70, R71) -/

theorem State.loadProgram_tooLarge (s : State) (b : List Byte) (hstarted : s.started = false)
    (hloaded : s.loaded = false) (hlen : progMax < b.length) : s.loadProgram b = (.romTooLarge, s) := by
  simp [State.loadProgram, hstarted, hloaded, hlen]

/-- Settles O53: the two refusals, and the block write at 0x200 of a program that fits. -/
theorem loadProgramPort : Obligations.LoadProgramPort := by
  refine fun s b => ⟨s.loadProgram_refused b, s.loadProgram_tooLarge b, fun hstarted hloaded hlen hwf => ?_⟩
  have hfit : progBase + b.length ≤ memSize := Nat.add_le_add_left hlen progBase
  refine ⟨_, s.loadProgram_accepted b hstarted hloaded hlen, fun j hj => ?_, fun a ha => ?_,
    State.writeBytes_wf b s progBase hwf hfit, ?_⟩
  · exact State.byteAt_writeBytes_add b s progBase j hwf hfit hj
  · have hout : ¬ (progBase ≤ a ∧ a - progBase < b.length) := by
      simp only [progBase]
      omega
    exact (State.byteAt_writeBytes b s progBase a hwf hfit).trans (dif_neg hout)
  · rw [State.writeBytes_eq]

/-! ### Every port keeps the invariant (R43) -/

theorem State.portReset_inv (s : State) : Inv s.portReset :=
  have hinit := State.initial_inv s.cfg
  ⟨hinit.mem_wf, hinit.pc_le, hinit.stack_le, hinit.record_wf⟩

theorem Inv.loadProgram {s : State} (hinv : Inv s) (b : List Byte) : Inv (s.loadProgram b).2 := by
  rcases s.loadProgram_cases b with h | ⟨hlen, h⟩ <;> rw [h]
  · exact hinv
  · rw [State.writeBytes_eq]
    have hwf := State.writeBytes_wf b s progBase hinv.mem_wf (Nat.add_le_add_left hlen progBase)
    rw [State.writeBytes_cfg] at hwf
    exact ⟨hwf, hinv.pc_le, hinv.stack_le, hinv.record_wf⟩

theorem State.loadProgram_cfg (s : State) (b : List Byte) : (s.loadProgram b).2.cfg = s.cfg := by
  rcases s.loadProgram_cases b with h | ⟨_, h⟩ <;> rw [h]
  exact State.writeBytes_cfg s progBase b

/-- Settles O57: by induction over the port operations that lead to the state. -/
theorem reachableStatesSatisfyInvariant : Obligations.ReachableStatesSatisfyInvariant := by
  intro cfg s hreach
  induction hreach with
  | initial => exact ⟨State.initial_inv cfg, rfl⟩
  | @reset s _ ih => exact ⟨s.portReset_inv, ih.2⟩
  | @load s b _ ih => exact ⟨ih.1.loadProgram b, (s.loadProgram_cfg b).trans ih.2⟩
  | setKeys k _ ih => exact ⟨⟨ih.1.mem_wf, ih.1.pc_le, ih.1.stack_le, ih.1.record_wf⟩, ih.2⟩
  | @cycle s t rnd _ h ih =>
    exact ⟨executeCycle_keeps_inv rnd s t ih.1 h, (executeCycle_cfg rnd s t h).trans ih.2⟩

end Sys2Proof.Machine
end

section
/-! PROOFS. The register instructions, one at a time: JP V0 (spec/41_flow.md R134), the skips (spec/42_skip.md,
spec/46_keypad.md R240 to R242), LD Vx, K (R243), arithmetic and logic (spec/43_alu.md) and the writes of I
(spec/44_index_random.md R201, spec/47_fclass.md R263, R272). What exec answers is by definition a composition of named
updates; what the registers then read is said once for each kind of update. -/

namespace Sys2Proof.Machine

/-! ### pc: JP V0 and the skips -/

/-- Settles O19: the sum of 12 and 8 bits fits in pc. -/
theorem jumpOffsetIsVZero : Obligations.JumpOffsetIsVZero := fun nnn s =>
  ⟨s.jumpTo (zext16 nnn + (s.v 0).setWidth 16), rfl, jpV0_target_toNat nnn (s.v 0), rfl⟩

/-- A skip is by 4 when it is taken and by 2 otherwise, modulo 2^16 (R150). -/
theorem State.skipIf_pc_toNat (s : State) (b : Bool) :
    (s.skipIf b).pc.toNat = (s.pc.toNat + if b = true then 4 else 2) % 2 ^ 16 := by
  cases b <;> exact BitVec.toNat_add ..

theorem State.skipIf_pc_toNat_of_iff (s : State) (b : Bool) (P : Prop) [Decidable P] (h : b = true ↔ P) :
    (s.skipIf b).pc.toNat = (s.pc.toNat + if P then 4 else 2) % 2 ^ 16 := by
  simp only [State.skipIf_pc_toNat, h]

theorem State.skipIf_pc_toNat_of_iff_not (s : State) (b : Bool) (P : Prop) [Decidable P] (h : b = true ↔ ¬ P) :
    (s.skipIf b).pc.toNat = (s.pc.toNat + if P then 2 else 4) % 2 ^ 16 := by
  simp only [State.skipIf_pc_toNat, h, ite_not]

/-- Settles O20: each skip is `skipIf` of its condition. -/
theorem registerSkips : Obligations.RegisterSkips := fun x y kk s =>
  ⟨⟨s.skipIf (s.v x == kk), rfl, rfl, s.skipIf_pc_toNat_of_iff _ _ beq_iff_eq⟩,
    ⟨s.skipIf (s.v x != kk), rfl, rfl, s.skipIf_pc_toNat_of_iff_not _ _ bne_iff_ne⟩,
    ⟨s.skipIf (s.v x == s.v y), rfl, rfl, s.skipIf_pc_toNat_of_iff _ _ beq_iff_eq⟩,
    ⟨s.skipIf (s.v x != s.v y), rfl, rfl, s.skipIf_pc_toNat_of_iff_not _ _ bne_iff_ne⟩⟩

/-! ### Keys (46_keypad.md) -/

theorem lowNibble_val (b : Byte) : (lowNibble b).val = b.toNat % 16 := by
  simp [lowNibble]

/-- Settles O21: the key named is the one at the low nibble. -/
theorem keySkips : Obligations.KeySkips := by
  intro x s k hk
  have hkey : s.keyIndex x = k := Fin.ext ((lowNibble_val (s.v x)).trans hk.symm)
  refine ⟨⟨s.skipIf (s.keyDown (s.keyIndex x)), rfl, rfl, s.skipIf_pc_toNat_of_iff _ _ ?_⟩,
    ⟨s.skipIf (!s.keyDown (s.keyIndex x)), rfl, rfl, s.skipIf_pc_toNat_of_iff_not _ _ ?_⟩⟩
  · rw [hkey, State.keyDown]
  · rw [hkey, State.keyDown, Bool.not_eq_true', Bool.not_eq_true]

theorem State.firstKey_eq_none (s : State) (h : ∀ k : Fin 16, s.key[k.val] = false) : s.firstKey = none := by
  rw [State.firstKey, ← Fin.find?_eq_find?_finRange]
  exact Fin.find?_eq_none_iff.mpr h

theorem State.firstKey_eq_some (s : State) (k : Fin 16) (hk : s.key[k.val] = true)
    (hlow : ∀ j : Fin 16, j < k → s.key[j.val] = false) : s.firstKey = some k := by
  rw [State.firstKey, ← Fin.find?_eq_find?_finRange]
  exact Fin.find?_eq_some_iff.mpr ⟨hk, hlow⟩

/-- Settles O22: `firstKey` finds no key, or the lowest one. -/
theorem waitForKey : Obligations.WaitForKey := by
  refine fun x s => ⟨fun hnone => ?_, fun k hk hlow => ?_⟩
  · simp only [exec, execLdVxK, s.firstKey_eq_none hnone]
  · refine ⟨(s.setV x (BitVec.ofNat 8 k.val)).advance, ?_, ?_, fun _ hr => s.setV_advance_v_of_ne _ hr, rfl, rfl⟩
    · simp only [exec, execLdVxK, s.firstKey_eq_some k hk hlow]
    · rw [State.setV_advance_v_same, BitVec.toNat_ofNat]
      omega

/-! ### Arithmetic and logic (43_alu.md) -/

/-- Settles O24: both write V[x] alone. -/
theorem addImmediateAndMove : Obligations.AddImmediateAndMove := by
  intro x y kk s
  refine ⟨⟨(s.setV x (s.v x + kk)).advance, rfl, ?_, fun _ hr => s.setV_advance_v_of_ne _ hr, rfl, rfl⟩,
    ⟨(s.setV x (s.v y)).advance, rfl, s.setV_advance_v_same x _, fun _ hr => s.setV_advance_v_of_ne _ hr, rfl, rfl⟩⟩
  rw [State.setV_advance_v_same, BitVec.toNat_add]

/-- What a logic result leaves besides V[x]: VF cleared exactly under LOGIC_RESETS_VF, other registers kept (R174). -/
theorem State.setLogic_advance_spec (s : State) (x : Reg) (b : Byte) :
    (s.cfg.logicResetsVF = true → (s.setLogic x b).advance.v VF = 0) ∧
    (∀ r, r ≠ x → r ≠ VF → (s.setLogic x b).advance.v r = s.v r) ∧
    (s.cfg.logicResetsVF = false → x ≠ VF → (s.setLogic x b).advance.v VF = s.v VF) ∧
    (s.setLogic x b).advance.pc = s.pc + 2 ∧
    (s.setLogic x b).advance = { s with V := (s.setLogic x b).advance.V, pc := (s.setLogic x b).advance.pc } := by
  refine ⟨fun hreset => by simp [hreset], fun r hx hVF => by simp [hx, hVF],
    fun hkeep hx => by simp [hkeep, hx.symm], by simp, ?_⟩
  unfold State.setLogic
  split <;> rfl

theorem State.setLogic_advance_v_same (s : State) (x : Reg) (b : Byte) (h : ¬ (s.cfg.logicResetsVF = true ∧ x = VF)) :
    (s.setLogic x b).advance.v x = b := by
  simp only [State.advance_v, State.setLogic_v, and_comm, h, if_false, if_true]

/-- Settles O25: the bits of the three results, and the frame of a logic result. -/
theorem logicOperations : Obligations.LogicOperations := by
  intro x y s
  refine ⟨(s.setLogic x (s.v x ||| s.v y)).advance, (s.setLogic x (s.v x &&& s.v y)).advance,
    (s.setLogic x (s.v x ^^^ s.v y)).advance, rfl, rfl, rfl, fun hx j _ => ?_, ?_⟩
  · simp only [s.setLogic_advance_v_same x _ hx, BitVec.getLsbD_or, BitVec.getLsbD_and, BitVec.getLsbD_xor, true_and]
  · simp only [List.forall_mem_cons, List.not_mem_nil, false_imp_iff, implies_true, and_true]
    exact ⟨s.setLogic_advance_spec x _, s.setLogic_advance_spec x _, s.setLogic_advance_spec x _⟩

theorem flagByte_decide_toNat (P : Prop) [Decidable P] : (flagByte (decide P)).toNat = if P then 1 else 0 := by
  by_cases h : P <;> simp [flagByte, h]

/-! ### A result and a flag

The result is left in V[x] unless VF is x, and the flag in VF also when it is (43_alu.md R170, R182). -/

theorem State.setResultThenFlag_advance_v_same (s : State) (x : Reg) (b : Byte) (f : Bool) (hx : x ≠ VF) :
    (s.setResultThenFlag x b f).advance.v x = b := by
  simp [hx]

theorem State.setResultThenFlag_advance_v_VF (s : State) (x : Reg) (b : Byte) (f : Bool) :
    (s.setResultThenFlag x b f).advance.v VF = flagByte f := by
  simp

theorem State.setResultThenFlag_advance_frame (s : State) (x : Reg) (b : Byte) (f : Bool) :
    (∀ r, r ≠ x → r ≠ VF → (s.setResultThenFlag x b f).advance.v r = s.v r) ∧
    (s.setResultThenFlag x b f).advance.pc = s.pc + 2 ∧
    (s.setResultThenFlag x b f).advance =
      { s with V := (s.setResultThenFlag x b f).advance.V, pc := (s.setResultThenFlag x b f).advance.pc } :=
  ⟨fun r hx hVF => by simp [hx, hVF], rfl, rfl⟩

/-- Settles O26: the three results modulo 256, the three flags, and the frame. -/
theorem addAndSubtract : Obligations.AddAndSubtract := by
  intro x y s
  refine ⟨(s.setResultThenFlag x (s.v x + s.v y) (carryOut (s.v x) (s.v y))).advance,
    (s.setResultThenFlag x (s.v x - s.v y) (noBorrow (s.v x) (s.v y))).advance,
    (s.setResultThenFlag x (s.v y - s.v x) (noBorrow (s.v y) (s.v x))).advance, rfl, rfl, rfl,
    fun hx => ?_, ?_, ?_, ?_, ?_⟩
  · simp only [State.setResultThenFlag_advance_v_same _ _ _ _ hx]
    refine ⟨BitVec.toNat_add .., ?_, ?_⟩ <;> bv_omega
  · rw [State.setResultThenFlag_advance_v_VF, carryOut, flagByte_decide_toNat]
  · rw [State.setResultThenFlag_advance_v_VF, noBorrow, flagByte_decide_toNat]
  · rw [State.setResultThenFlag_advance_v_VF, noBorrow, flagByte_decide_toNat]
  · simp only [List.forall_mem_cons, List.not_mem_nil, false_imp_iff, implies_true, and_true]
    exact ⟨State.setResultThenFlag_advance_frame .., State.setResultThenFlag_advance_frame ..,
      State.setResultThenFlag_advance_frame ..⟩

theorem flagByte_droppedRight_toNat (b : Byte) : (flagByte (droppedRight b)).toNat = b.toNat % 2 := by
  rw [droppedRight, ← BitVec.testBit_toNat, Nat.testBit_zero, flagByte_decide_toNat]
  split <;> omega

theorem flagByte_droppedLeft_toNat (b : Byte) : (flagByte (droppedLeft b)).toNat = b.toNat / 128 := by
  have hb := b.isLt
  rw [droppedLeft, ← BitVec.testBit_toNat, Nat.testBit_eq_decide_div_mod_eq, flagByte_decide_toNat]
  split <;> omega

/-- Settles O27: the source halved and doubled, the bit dropped, and the frame. -/
theorem shifts : Obligations.Shifts := by
  rintro x y s src rfl
  refine ⟨(s.setResultThenFlag x (s.shiftSource x y >>> 1) (droppedRight (s.shiftSource x y))).advance,
    (s.setResultThenFlag x (s.shiftSource x y <<< 1) (droppedLeft (s.shiftSource x y))).advance, rfl, rfl, fun hx => ?_,
    ?_, ?_, ?_⟩
  · simp only [State.setResultThenFlag_advance_v_same _ _ _ _ hx]
    exact ⟨by rw [BitVec.toNat_ushiftRight, Nat.shiftRight_one]; rfl,
      by rw [BitVec.toNat_shiftLeft, Nat.shiftLeft_eq]; rfl⟩
  · rw [State.setResultThenFlag_advance_v_VF, flagByte_droppedRight_toNat]
    rfl
  · rw [State.setResultThenFlag_advance_v_VF, flagByte_droppedLeft_toNat]
    rfl
  · simp only [List.forall_mem_cons, List.not_mem_nil, false_imp_iff, implies_true, and_true]
    exact ⟨State.setResultThenFlag_advance_frame .., State.setResultThenFlag_advance_frame ..⟩

/-! ### I -/

/-- Settles O28: a 12-bit address, a glyph's address, and a sum modulo 2^16. -/
theorem indexWrites : Obligations.IndexWrites := by
  intro nnn x s
  refine ⟨⟨(s.setI (zext16 nnn)).advance, rfl, zext16_toNat nnn, rfl⟩,
    ⟨(s.setI (s.glyphAddress x)).advance, rfl, ?_, rfl⟩,
    ⟨(s.setI (s.I + (s.v x).setWidth 16)).advance, rfl, ?_, rfl⟩⟩
  · simp only [State.advance_I, State.setI_I, State.glyphAddress, BitVec.toNat_ofNat, lowNibble_val]
    omega
  · simp only [State.advance_I, State.setI_I]
    bv_omega

end Sys2Proof.Machine
end

section
/-! PROOFS. Block transfers at I (spec/47_fclass.md R264 to R266): what LD B and LD [I] leave in memory, what LD Vx, [I]
leaves in the registers, the round trip of the two, and the fetch of a stored word (spec/20_memory.md R76). -/

namespace Sys2Proof.Machine

/-! ### What each transfer answers in range -/

theorem exec_ldBVx_inRange (x : Reg) (s : State) (h : s.I.toNat + 2 ≤ 0xFFF) :
    exec (.ldBVx x) s = .next (s.writeBytes s.I.toNat (bcdDigits (s.v x))).advance :=
  accessAtI_inBounds _ 3 s _ (.inr (by simp only [memSize]; omega))

theorem exec_ldIVx_inRange (x : Reg) (s : State) (h : s.I.toNat + x.val ≤ 0xFFF) :
    exec (.ldIVx x) s = .next ((s.writeBytes s.I.toNat (s.regsUpTo x)).setI (s.indexAfterBlock x)).advance :=
  accessAtI_inBounds _ (x.val + 1) s _ (.inr (by simp only [memSize]; omega))

theorem exec_ldVxI_inRange (x : Reg) (s : State) (h : s.I.toNat + x.val ≤ 0xFFF) :
    exec (.ldVxI x) s = .next ((s.loadRegs x s.I.toNat).setI (s.indexAfterBlock x)).advance :=
  accessAtI_inBounds _ (x.val + 1) s _ (.inr (by simp only [memSize]; omega))

/-- I after a transfer in range does not wrap (R265, R266). -/
theorem State.indexAfterBlock_toNat (s : State) (x : Reg) (h : s.I.toNat + x.val ≤ 0xFFF) :
    (s.indexAfterBlock x).toNat =
      if s.cfg.loadStoreIncrementsI = true then s.I.toNat + x.val + 1 else s.I.toNat := by
  unfold State.indexAfterBlock
  split
  · rw [BitVec.toNat_ofNat]
    omega
  · rfl

/-! ### LD B (R264) -/

/-- Settles O31: the three bytes of the block, the bytes outside it, and the frame of a block write. -/
theorem bcdStoresDigits : Obligations.BcdStoresDigits := by
  intro x s hwf h
  have hv := (s.v x).isLt
  have hfit : s.I.toNat + (bcdDigits (s.v x)).length ≤ memSize := Nat.succ_le_succ h
  have hdigit (j : Nat) (hj : j < 3) :
      ((s.writeBytes s.I.toNat (bcdDigits (s.v x))).byteAt (s.I.toNat + j)).toNat = (bcdDigits (s.v x))[j].toNat := by
    rw [State.byteAt_writeBytes_add _ s _ j hwf hfit hj]
  refine ⟨_, exec_ldBVx_inRange x s h, ?_, ?_, ?_, fun a ha => ?_, ?_⟩
  · exact (hdigit 0 (by decide)).trans (Nat.mod_eq_of_lt (by omega))
  · exact (hdigit 1 (by decide)).trans (Nat.mod_eq_of_lt (by omega))
  · exact (hdigit 2 (by decide)).trans (Nat.mod_eq_of_lt (by omega))
  · have hout : ¬ (s.I.toNat ≤ a ∧ a - s.I.toNat < (bcdDigits (s.v x)).length) := by
      simp only [bcdDigits, List.length_cons, List.length_nil]
      omega
    exact (State.byteAt_writeBytes _ s _ a hwf hfit).trans (dif_neg hout)
  · rw [State.writeBytes_eq]
    rfl

/-! ### LD [I] (R265) -/

/-- The bytes after a register dump in range: the registers at I … I + x, what was there before elsewhere. -/
theorem byteAt_after_ldIVx (x : Reg) (s t : State) (hwf : Memory.wf s.cfg.font s.mem) (h : s.I.toNat + x.val ≤ 0xFFF)
    (ht : exec (.ldIVx x) s = .next t) :
    (∀ j : Fin 16, j ≤ x → t.byteAt (s.I.toNat + j.val) = s.v j) ∧
    (∀ a, a < s.I.toNat ∨ s.I.toNat + x.val < a → t.byteAt a = s.byteAt a) := by
  cases ht.symm.trans (exec_ldIVx_inRange x s h)
  have hlen := s.length_regsUpTo x
  have hfit : s.I.toNat + (s.regsUpTo x).length ≤ memSize := by
    rw [hlen]
    exact Nat.succ_le_succ h
  refine ⟨fun j hj => ?_, fun a ha => ?_⟩
  · have hin : j.val < (s.regsUpTo x).length := by
      rw [hlen]
      exact Nat.lt_succ_of_le hj
    exact (State.byteAt_writeBytes_add _ s _ j.val hwf hfit hin).trans (s.getElem_regsUpTo x j.val hin)
  · have hout : ¬ (s.I.toNat ≤ a ∧ a - s.I.toNat < (s.regsUpTo x).length) := by omega
    exact (State.byteAt_writeBytes _ s _ a hwf hfit).trans (dif_neg hout)

/-- Settles O32: the bytes after the dump, I after a transfer, and the frame of a block write. -/
theorem dumpStoresRegisters : Obligations.DumpStoresRegisters := by
  intro x s hwf h
  have hexec := exec_ldIVx_inRange x s h
  obtain ⟨hin, hout⟩ := byteAt_after_ldIVx x s _ hwf h hexec
  refine ⟨_, hexec, hin, hout, s.indexAfterBlock_toNat x h, ?_⟩
  rw [State.writeBytes_eq]
  rfl

/-! ### LD Vx, [I] (R266) -/

/-- Settles O33: the registers up to x, those above, and I after a transfer. -/
theorem loadFillsRegisters : Obligations.LoadFillsRegisters := fun x s h =>
  ⟨_, exec_ldVxI_inRange x s h, fun j hj => by simp [hj], fun j hj => by simp [not_le.mpr hj],
    s.indexAfterBlock_toNat x h, rfl⟩

/-- Settles O34: the load reads the bytes that the dump left at the same I. -/
theorem dumpThenLoadRestores : Obligations.DumpThenLoadRestores := by
  intro x s t u hwf h ht hmem hcfg hI
  obtain ⟨hin, _⟩ := byteAt_after_ldIVx x s t hwf h ht
  obtain ⟨w, hw, hload, _⟩ := loadFillsRegisters x u (by rwa [hI])
  refine ⟨w, hw, fun j hj => ?_⟩
  rw [hload j hj, hI, State.byteAt_congr hcfg hmem, hin j hj]

/-! ### Stored code (20_memory.md R76) -/

/-- Settles O35: the fetch at I + j reads the bytes of two stored registers. -/
theorem storedWordIsFetched : Obligations.StoredWordIsFetched := by
  intro x j s t hwf h ht hpc hj k hk
  obtain ⟨hin, _⟩ := byteAt_after_ldIVx x s t hwf h ht
  have hkx : k ≤ x := by
    rw [Fin.le_def, hk]
    exact hj
  rw [State.fetchWord, wordOfBytes, hpc, Nat.add_assoc, ← hk, hin j (le_of_lt hj), hin k hkx]

end Sys2Proof.Machine
end

section
/-! PROOFS. The display (spec/45_display.md): CLS (R220), and DRW as one formula a pixel (R221 to R225), from which a
draw repeated at the same place restores the display (R226). -/

namespace Sys2Proof.Machine

/-- Settles O37: CLS writes the dark display. -/
theorem clearScreen : Obligations.ClearScreen := fun s =>
  ⟨(s.setDisp Display.clear).advance, rfl, fun x y _ _ => Display.pixel_clear x y, rfl⟩

/-! ### The pixels of a draw (R221 to R224) -/

/-- Inside the grid the rows that DRW reads set the sprite's bits. -/
theorem State.rowsBit_readBytes (s : State) (x y : Reg) (n : Rows) (px py : Nat) (hx : px < 64) (hy : py < 32) :
    rowsBit (s.originX x) (s.originY y) (s.readBytes s.I.toNat n.val) px py = s.spriteBit x y n px py := by
  rw [Bool.eq_iff_iff, rowsBit_eq]
  simp only [State.getElem_readBytes, State.length_readBytes, State.spriteBit, Bool.and_eq_true, decide_eq_true_eq]
  constructor
  · rintro ⟨r, hr, rfl, hlow, hhigh, hbit, _⟩
    exact ⟨⟨⟨⟨hlow, hhigh⟩, by omega⟩, by omega⟩, by rwa [Nat.add_sub_cancel_left]⟩
  · rintro ⟨⟨⟨⟨hlow, hhigh⟩, htop⟩, hbottom⟩, hbit⟩
    exact ⟨py - s.originY y, by omega, by omega, hlow, hhigh, hbit, hx, hy⟩

theorem State.drawn_pixel (s : State) (x y : Reg) (n : Rows) (px py : Nat) (hx : px < 64) (hy : py < 32) :
    (s.drawn x y n).1.pixel px py = (s.disp.pixel px py != s.spriteBit x y n px py) := by
  rw [State.drawn, (drawRows_spec _ _ _ _).1, s.rowsBit_readBytes x y n px py hx hy]

/-- The collision of a draw: a lit pixel under a set bit of the sprite. A pixel outside the grid is dark. -/
theorem State.drawn_collision (s : State) (x y : Reg) (n : Rows) :
    (s.drawn x y n).2 = true ↔
      ∃ px py, px < 64 ∧ py < 32 ∧ s.disp.pixel px py = true ∧ s.spriteBit x y n px py = true := by
  rw [State.drawn, (drawRows_spec _ _ _ _).2]
  simp only [Bool.false_eq_true, false_or]
  constructor
  · rintro ⟨px, py, hlit, hbit⟩
    have hgrid : px < 64 ∧ py < 32 := by
      by_contra hout
      rw [Display.pixel_outside _ px py hout] at hlit
      cases hlit
    exact ⟨px, py, hgrid.1, hgrid.2, hlit, by rwa [← s.rowsBit_readBytes x y n px py hgrid.1 hgrid.2]⟩
  · rintro ⟨px, py, hx, hy, hlit, hbit⟩
    exact ⟨px, py, hlit, by rwa [s.rowsBit_readBytes x y n px py hx hy]⟩

/-! ### DRW -/

/-- The state a draw in range leaves. -/
def State.afterDraw (s : State) (x y : Reg) (n : Rows) : State :=
  ((s.setDisp (s.drawn x y n).1).setV VF (flagByte (s.drawn x y n).2)).advance

theorem exec_drw_inRange (x y : Reg) (n : Rows) (s : State) (h : n = 0 ∨ s.I.toNat + (n.val - 1) ≤ 0xFFF) :
    exec (.drw x y n) s = .next (s.afterDraw x y n) := by
  refine accessAtI_inBounds _ n.val s _ ?_
  rcases h with rfl | h
  · exact .inl rfl
  · simp only [memSize]
    omega

theorem State.afterDraw_pixel (s : State) (x y : Reg) (n : Rows) (px py : Nat) (hx : px < 64) (hy : py < 32) :
    (s.afterDraw x y n).disp.pixel px py = (s.disp.pixel px py != s.spriteBit x y n px py) :=
  s.drawn_pixel x y n px py hx hy

theorem State.afterDraw_v_VF (s : State) (x y : Reg) (n : Rows) :
    (s.afterDraw x y n).v VF = flagByte (s.drawn x y n).2 :=
  State.setV_advance_v_same _ VF _

theorem flagByte_eq_one (b : Bool) : flagByte b = 1 ↔ b = true := by
  cases b <;> decide

theorem flagByte_cases (b : Bool) : flagByte b = 0 ∨ flagByte b = 1 := by
  cases b <;> decide

/-- VF after a draw is 1 exactly when a lit pixel lies under a set bit of the sprite. -/
theorem State.afterDraw_v_VF_eq_one (s : State) (x y : Reg) (n : Rows) :
    (s.afterDraw x y n).v VF = 1 ↔
      ∃ px py, px < 64 ∧ py < 32 ∧ s.disp.pixel px py = true ∧ s.spriteBit x y n px py = true := by
  rw [s.afterDraw_v_VF, flagByte_eq_one, s.drawn_collision]

theorem State.afterDraw_v_VF_cases (s : State) (x y : Reg) (n : Rows) :
    (s.afterDraw x y n).v VF = 0 ∨ (s.afterDraw x y n).v VF = 1 := by
  rw [s.afterDraw_v_VF]
  exact flagByte_cases _

/-- Settles O38: pixels, VF and the frame of `afterDraw`; a lit pixel is erased exactly under a set bit. -/
theorem drawXorsSprite : Obligations.DrawXorsSprite := by
  refine fun x y n s h => ⟨_, exec_drw_inRange x y n s h, s.afterDraw_pixel x y n, s.afterDraw_v_VF_cases x y n, ?_,
    fun _ hr => State.setV_advance_v_of_ne _ _ hr, rfl⟩
  rw [s.afterDraw_v_VF_eq_one]
  refine exists₂_congr fun px py => and_congr_right fun hx => and_congr_right fun hy => and_congr_right fun hlit => ?_
  rw [s.afterDraw_pixel x y n px py hx hy, hlit, bne_eq_false_iff_eq, eq_comm]

/-! ### Drawing twice (R226) -/

/-- A draw that leaves the two origin registers leaves the sprite. -/
theorem State.spriteBit_afterDraw (s : State) (x y : Reg) (n : Rows) (hx : (s.afterDraw x y n).v x = s.v x)
    (hy : (s.afterDraw x y n).v y = s.v y) (px py : Nat) :
    (s.afterDraw x y n).spriteBit x y n px py = s.spriteBit x y n px py := by
  simp only [State.spriteBit, State.originX, State.originY, hx, hy]
  rfl

/-- Settles O39: XOR with the same sprite twice is the identity, and the second draw erases what the first one lit. -/
theorem drawTwiceRestoresDisplay : Obligations.DrawTwiceRestoresDisplay := by
  intro x y n s t h ht hvx hvy
  cases ht.symm.trans (exec_drw_inRange x y n s h)
  have hsprite := s.spriteBit_afterDraw x y n hvx hvy
  have hpixel := s.afterDraw_pixel x y n
  have hflag : ((s.afterDraw x y n).afterDraw x y n).v VF = 1 ↔
      ∃ px py, px < 64 ∧ py < 32 ∧ s.spriteBit x y n px py = true ∧ s.disp.pixel px py = false := by
    rw [State.afterDraw_v_VF_eq_one]
    refine exists₂_congr fun px py => and_congr_right fun hx => and_congr_right fun hy => ?_
    rw [hpixel px py hx hy, hsprite]
    cases s.disp.pixel px py <;> cases s.spriteBit x y n px py <;> decide
  refine ⟨_, exec_drw_inRange x y n (s.afterDraw x y n) h, ?_, State.afterDraw_v_VF_cases _ x y n, hflag,
    fun hnone => ?_⟩
  · refine Display.ext_pixel _ _ fun px py hx hy => ?_
    rw [State.afterDraw_pixel _ x y n px py hx hy, hpixel px py hx hy, hsprite]
    cases s.disp.pixel px py <;> cases s.spriteBit x y n px py <;> rfl
  · have hdark : ∀ px py, px < 64 → py < 32 → s.spriteBit x y n px py = true → s.disp.pixel px py = false := by
      intro px py hx hy hbit
      by_contra hlit
      have hone := (s.afterDraw_v_VF_eq_one x y n).mpr ⟨px, py, hx, hy, Bool.eq_true_of_not_eq_false hlit, hbit⟩
      rw [hnone] at hone
      cases hone
    rw [hflag]
    exact exists₂_congr fun px py => and_congr_right fun hx => and_congr_right fun hy =>
      and_iff_left_of_imp (hdark px py hx hy)

end Sys2Proof.Machine
end
